-- ==== Sys2Proof/Word.lean ====
section
/-! DEFINITION. The value domains of the hardware (00_scope.md R5, R6, R7): elements, instruction words, register values. -/

namespace Sys2Proof

/-- An element: one 3-bit unsigned member of the flat program sequence or of the output stream
(00_scope.md R7, 20_memory.md R52). -/
abbrev Element := BitVec 3

/-- A packed instruction: six bits, opcode in bits [5:3], operand in bits [2:0] (30_encoding.md R71, decision D3). -/
abbrev InstrWord := BitVec 6

/-! A register value is a natural number, the `W = inf` reading of 00_scope.md R7, "any natural number". DEDUCED, log 1:
by 10_state.md R23 every finite `W` that holds the launch values gives the same run. Safe. -/

/-- The three general registers, in the order of their numbers 0, 1, 2 (10_state.md R21). -/
inductive Reg where
  | A
  | B
  | C
deriving DecidableEq, Repr

end Sys2Proof
end

