-- ==== Sys2Proof/Config.lean ====
section
/-! DEFINITION. What an implementation of the hardware fixes (00_scope.md R5). -/

namespace Sys2Proof

/-- The implementation parameters that 00_scope.md R5 leaves OPEN; `none` is the spec's `inf`. They bound what a launch
may present (10_state.md R24, 92_eei_decisions.md D1, D4) and enter no instruction's meaning (10_state.md R23).
`MAX_STEPS`, the third open parameter, is an argument of each launch. -/
structure Config where
  /-- `W`, the width in bits of registers A, B, C. -/
  W : Option Nat
  /-- `LMAX`, the capacity of the program store in elements. -/
  LMAX : Option Nat
deriving DecidableEq, Repr

namespace Config

/-- `W >= 3`, or unbounded (00_scope.md R5). -/
def widthOk (cfg : Config) : Bool :=
  match cfg.W with
  | none => true
  | some w => 3 ≤ w

/-- `LMAX` is even, or unbounded (00_scope.md R5). -/
def capacityOk (cfg : Config) : Bool :=
  match cfg.LMAX with
  | none => true
  | some n => n % 2 == 0

/-- The constraints of 00_scope.md R5 on the parameters. A configuration that does not meet them is no implementation of
the spec; the launch does not check this (DESIGN CHOICE, log 22), so a claim about the spec's machines has `cfg.valid` as
a premise or holds for every configuration. -/
def valid (cfg : Config) : Bool := cfg.widthOk && cfg.capacityOk

/-- A value that a register of this width can hold: [0, 2^W - 1], or any natural number (00_scope.md R7). -/
def holdsValue (cfg : Config) (v : Nat) : Bool :=
  match cfg.W with
  | none => true
  | some w => v < 2 ^ w

/-- A program of `n` elements fits in the program store (92_eei_decisions.md D4). -/
def holdsProgram (cfg : Config) (n : Nat) : Bool :=
  match cfg.LMAX with
  | none => true
  | some m => n ≤ m

/-- Registers and program store without bound. -/
def unbounded : Config := { W := none, LMAX := none }

/-- The spec's recommended width, `W = 64`, with an unbounded program store (00_scope.md R5, D1, D4). -/
def recommended : Config := { W := some 64, LMAX := none }

end Config

end Sys2Proof
end

