-- ==== Sys2Proof/Syntax.lean ====
section
/-! DEFINITION. The instructions: one constructor per row of spec/opcode_table.json, in opcode order (30_encoding.md R77). -/

namespace Sys2Proof

/-- An instruction. The operand element is kept as the decoder hands it on, unchanged (30_encoding.md R78); each
instruction's own rule reads it as a literal, as a combo selector, or not at all (30_encoding.md R74). -/
inductive Instr where
  /-- opcode 0, combo operand: divide A, result to A (41_divide_shift.md R111) -/
  | adv (o : Element)
  /-- opcode 1, literal operand: exclusive-or of B with a literal (42_bitwise.md R120) -/
  | bxl (o : Element)
  /-- opcode 2, combo operand: combo value modulo 8 to B (42_bitwise.md R121) -/
  | bst (o : Element)
  /-- opcode 3, literal operand: jump if A is not zero (43_control_jnz.md R130) -/
  | jnz (o : Element)
  /-- opcode 4, operand unused: exclusive-or of B with C (42_bitwise.md R122) -/
  | bxc (o : Element)
  /-- opcode 5, combo operand: emit combo value modulo 8 (44_output.md R140) -/
  | out (o : Element)
  /-- opcode 6, combo operand: divide A, result to B (41_divide_shift.md R112) -/
  | bdv (o : Element)
  /-- opcode 7, combo operand: divide A, result to C (41_divide_shift.md R113) -/
  | cdv (o : Element)
deriving DecidableEq, Repr

/-- The three meanings an operand element can have (30_encoding.md R74). -/
inductive OperandKind where
  | literal
  | combo
  | unused
deriving DecidableEq, Repr

/-- The operand kind of each instruction (30_encoding.md R74, R77). -/
def Instr.operandKind : Instr → OperandKind
  | .adv _ => .combo
  | .bxl _ => .literal
  | .bst _ => .combo
  | .jnz _ => .literal
  | .bxc _ => .unused
  | .out _ => .combo
  | .bdv _ => .combo
  | .cdv _ => .combo

/-- The operand element of an instruction, whatever its kind. -/
def Instr.operand : Instr → Element
  | .adv o => o
  | .bxl o => o
  | .bst o => o
  | .jnz o => o
  | .bxc o => o
  | .out o => o
  | .bdv o => o
  | .cdv o => o

/-- The mnemonic of each instruction (30_encoding.md R77). -/
def Instr.mnemonic : Instr → String
  | .adv _ => "adv"
  | .bxl _ => "bxl"
  | .bst _ => "bst"
  | .jnz _ => "jnz"
  | .bxc _ => "bxc"
  | .out _ => "out"
  | .bdv _ => "bdv"
  | .cdv _ => "cdv"

end Sys2Proof
end

