-- ==== Sys2Proof/WellFormed.lean ====
section
/-! DEFINITION. The loader's validity check of a program (30_encoding.md R73) and the source's notion of a well-formed
instruction (00_scope.md glossary). Every term of `Instr` has an encoding, since its operand is a 3-bit element; the
hardware does not require an instruction to be well-formed, and no meaning depends on the second check
(93_implementation_defined.md U17). -/

namespace Sys2Proof

/-- The length of a flat program is even (30_encoding.md R73). -/
def lengthEven (p : List Nat) : Bool := p.length % 2 == 0

/-- Every member of a flat program lies in [0, 7] (30_encoding.md R73). -/
def elementsInRange (p : List Nat) : Bool := p.all fun e => e ≤ 7

/-- The loader accepts exactly these sequences; no other validation is performed (30_encoding.md R73). -/
def programValid (p : List Nat) : Bool := lengthEven p && elementsInRange p

/-- The five reserved words: combo operand 7 (30_encoding.md R79). -/
def Instr.reserved (i : Instr) : Bool := i.operandKind == .combo && i.operand == 7#3

/-- The target of `jnz` is even (00_scope.md glossary, "well-formed program"); other instructions have no target. -/
def Instr.targetEven : Instr → Bool
  | .jnz t => t.toNat % 2 == 0
  | .adv _ => true
  | .bxl _ => true
  | .bst _ => true
  | .bxc _ => true
  | .out _ => true
  | .bdv _ => true
  | .cdv _ => true

/-- The target of `jnz` lies in a program of `len` elements (00_scope.md glossary, "well-formed program"). -/
def Instr.targetInBounds (len : Nat) : Instr → Bool
  | .jnz t => t.toNat < len
  | .adv _ => true
  | .bxl _ => true
  | .bst _ => true
  | .bxc _ => true
  | .out _ => true
  | .bdv _ => true
  | .cdv _ => true

/-- An instruction of a well-formed program of `len` elements, in the source's sense (00_scope.md glossary): no
reserved combo operand, and an even jump target inside the program. -/
def Instr.wellFormed (len : Nat) (i : Instr) : Bool :=
  !i.reserved && i.targetEven && i.targetInBounds len

end Sys2Proof
end

