-- ==== Sys2Proof/Decode.lean ====
section
/-! DEFINITION. Decoding and encoding (30_encoding.md R70 to R81): an element pair, a 6-bit word, a flat program. -/

namespace Sys2Proof

/-- Decode one element pair by the opcode alone; the operand is handed on unchanged (30_encoding.md R77, R78). The
match is on the opcode's bits 2, 1, 0, as the pattern column of R77 writes them; it is exhaustive and never refuses. -/
def decode (opcode operand : Element) : Instr :=
  match opcode.getLsbD 2, opcode.getLsbD 1, opcode.getLsbD 0 with
  | false, false, false => .adv operand
  | false, false, true => .bxl operand
  | false, true, false => .bst operand
  | false, true, true => .jnz operand
  | true, false, false => .bxc operand
  | true, false, true => .out operand
  | true, true, false => .bdv operand
  | true, true, true => .cdv operand

/-- The bits [5:3] of a packed instruction (30_encoding.md R71). -/
def opcodeField (w : InstrWord) : Element := w.extractLsb' 3 3

/-- The bits [2:0] of a packed instruction (30_encoding.md R71). -/
def operandField (w : InstrWord) : Element := w.extractLsb' 0 3

/-- Pack an element pair: `word = opcode * 8 + operand` (30_encoding.md R71). -/
def packWord (opcode operand : Element) : InstrWord := opcode ++ operand

/-- Decode a packed instruction (30_encoding.md R71, R78). -/
def decodeWord (w : InstrWord) : Instr := decode (opcodeField w) (operandField w)

/-- Why a sequence of numbers is no instruction or no program. The hardware reports the two program cases as one
`MalformedProgram` (60_exceptions.md R151); the names here serve the reader. -/
inductive DecodeReject where
  /-- the number has a bit set above bit 5, so it is no 6-bit word (30_encoding.md R71) -/
  | notSixBits
  /-- the flat sequence has odd length (30_encoding.md R73) -/
  | oddLength
  /-- a member of the flat sequence lies outside [0, 7] (30_encoding.md R73) -/
  | elementOutOfRange
deriving DecidableEq, Repr

/-- Decode any number as a packed instruction, rejecting by name those of more than six bits. -/
def decodeNumber (w : Nat) : Except DecodeReject Instr :=
  if w < 64 then .ok (decodeWord (BitVec.ofNat 6 w)) else .error .notSixBits

/-- The instruction the decoder reads from an opcode-table row's bits, bit 0 the least significant: the table's 6-bit
word has the opcode in [5:3], the operand in [2:0]. The instruction has no further operand words, so `nbits` decides
nothing. -/
def decodeTableWord (_nbits w : Nat) : Option Instr :=
  match decodeNumber w with
  | .ok i => some i
  | .error _ => none

/-- The members of a flat sequence as elements; meant for sequences that `programValid` accepts. -/
def toElements (p : List Nat) : List Element := p.map fun e => BitVec.ofNat 3 e

/-- The instructions of a flat program, in order: elements `2 * i` and `2 * i + 1` are instruction `i`
(20_memory.md R52). A last element without a partner is no instruction. -/
def decodeProgram : List Element → List Instr
  | opcode :: operand :: rest => decode opcode operand :: decodeProgram rest
  | _ => []

/-- Decode any flat sequence of numbers, rejecting by name what the loader rejects (30_encoding.md R73). -/
def decodeFlat (p : List Nat) : Except DecodeReject (List Instr) :=
  if lengthEven p then
    if elementsInRange p then .ok (decodeProgram (toElements p)) else .error .elementOutOfRange
  else .error .oddLength

/-- The opcode element of each instruction (30_encoding.md R77, first column). -/
def opcodeOf : Instr → Element
  | .adv _ => 0#3
  | .bxl _ => 1#3
  | .bst _ => 2#3
  | .jnz _ => 3#3
  | .bxc _ => 4#3
  | .out _ => 5#3
  | .bdv _ => 6#3
  | .cdv _ => 7#3

/-- The element pair of an instruction: opcode, then operand (30_encoding.md R70). -/
def encode (i : Instr) : Element × Element := (opcodeOf i, i.operand)

/-- The packed word of an instruction (30_encoding.md R71). -/
def encodeWord (i : Instr) : InstrWord := packWord (opcodeOf i) i.operand

/-- The flat form of a list of instructions (30_encoding.md R72). -/
def encodeProgram : List Instr → List Element
  | [] => []
  | i :: is => opcodeOf i :: i.operand :: encodeProgram is

/-- The listing form of an instruction, used in the spec's examples and nowhere normative (30_encoding.md R82); the operand
is always written, also for `bxc`. -/
def Instr.listing (i : Instr) : String := i.mnemonic ++ " " ++ toString i.operand.toNat

/-- The word form of a flat program: `w[i] = e[2i] * 8 + e[2i+1]` (30_encoding.md R72). -/
def wordForm : List Element → List InstrWord
  | opcode :: operand :: rest => packWord opcode operand :: wordForm rest
  | _ => []

/-- The flat form of a word-form program: `e[2i] = w[i][5:3]`, `e[2i+1] = w[i][2:0]` (30_encoding.md R72). -/
def flatForm : List InstrWord → List Element
  | [] => []
  | w :: ws => opcodeField w :: operandField w :: flatForm ws

/-- One row of spec/opcode_table.json: the mnemonic, the mask of the fixed bits, and their value. -/
structure OpcodeRow where
  mnemonic : String
  mask : InstrWord
  fixed : InstrWord
deriving DecidableEq, Repr

/-- The opcode table, row by row (spec/opcode_table.json; 30_encoding.md R77). -/
def opcodeTable : List OpcodeRow :=
  [ { mnemonic := "adv", mask := 0b111000#6, fixed := 0b000000#6 },
    { mnemonic := "bxl", mask := 0b111000#6, fixed := 0b001000#6 },
    { mnemonic := "bst", mask := 0b111000#6, fixed := 0b010000#6 },
    { mnemonic := "jnz", mask := 0b111000#6, fixed := 0b011000#6 },
    { mnemonic := "bxc", mask := 0b111000#6, fixed := 0b100000#6 },
    { mnemonic := "out", mask := 0b111000#6, fixed := 0b101000#6 },
    { mnemonic := "bdv", mask := 0b111000#6, fixed := 0b110000#6 },
    { mnemonic := "cdv", mask := 0b111000#6, fixed := 0b111000#6 } ]

/-- A word belongs to a row when its masked bits are the row's fixed bits. -/
def OpcodeRow.covers (row : OpcodeRow) (w : InstrWord) : Bool := w &&& row.mask == row.fixed

end Sys2Proof
end

