-- ==== Sys2Proof/Machine/State.lean ====
section
/-! DEFINITION. The state of the machine (10_state.md R20, R32), the fault causes (60_exceptions.md R150) and the state
after reset. -/

namespace Sys2Proof.Machine

/-- The fault causes: exactly the three of 60_exceptions.md R150 that this hardware raises (R156). They are the value of
the state's `cause`, and the reason with which a launch is rejected or a machine in `FAULT` stays stopped. -/
inductive Fault where
  /-- Raised by the launch on a program of odd length or with an element outside [0, 7] (60_exceptions.md R151); never
  during a run. Safe: no state is created. -/
  | malformedProgram
  /-- Raised by a step: combo operand 7 resolved, or a taken jump to an odd or out-of-bounds offset (60_exceptions.md
  R152, R153, R154). Safe: the spec's own fault; where it reads the source (log 11) the model may fault where an
  implementation would go on. -/
  | invalidOperand
  /-- Raised between steps when `pc < N` and `steps = MAX_STEPS` (60_exceptions.md R155). Safe: the spec's own fault;
  its exact comparison and place among the tests are the spec's decisions (log 14). -/
  | stepBudgetExceeded
deriving DecidableEq, Repr

/-- Why something has no meaning in this model. No instruction is refused. -/
inductive Refusal where
  /-- Raised by `exec` for an instruction without a meaning; no arm raises it. Safe. -/
  | notModelled (mnemonic : String)
  /-- Raised by the launch for a register value that `W` bits cannot hold, which no host can present (10_state.md R24,
  70_reset_and_hazards.md R181). Safe: no state is created. -/
  | registerOutOfRange
  /-- Raised by the launch for a program longer than the program store (92_eei_decisions.md D4). Safe: no state is
  created. -/
  | programTooLong
  /-- Raised by a step from a state whose status is `FAULT` and that records no cause, which no run reaches (log 7).
  Safe: the machine stops. -/
  | noCauseRecorded
deriving DecidableEq, Repr

/-- The run status (10_state.md R29). -/
inductive Status where
  /-- launched, neither halted nor faulted -/
  | running
  /-- the terminal condition was met -/
  | halted
  /-- a fault was raised -/
  | fault
deriving DecidableEq, Repr

/-- The reason a fault record holds (60_exceptions.md R160). -/
inductive Reason where
  | combo7
  | jumpOdd
  | jumpOutOfBounds
  | budget
deriving DecidableEq, Repr

/-- The fault record `info` (60_exceptions.md R160): the reason, the index of the faulting instruction, and its two
elements, which are not recorded for `budget`. -/
structure FaultInfo where
  reason : Reason
  pc : Nat
  opcode : Option Element
  operand : Option Element
deriving DecidableEq, Repr

/-- The state of the machine: the tuple of 10_state.md R20, and the launch constants of 10_state.md R32 (log 2). -/
structure State where
  /-- register A (10_state.md R21) -/
  a : Nat
  /-- register B (10_state.md R21) -/
  b : Nat
  /-- register C (10_state.md R21) -/
  c : Nat
  /-- the instruction pointer, an instruction index (10_state.md R25) -/
  pc : Nat
  /-- the output stream, oldest element first (10_state.md R27) -/
  out : List Element
  /-- the run status (10_state.md R29) -/
  status : Status
  /-- the step counter (10_state.md R30) -/
  steps : Nat
  /-- the fault cause (10_state.md R31); `none` is the code 0 of 92_eei_decisions.md D12, "no fault" -/
  cause : Option Fault
  /-- the fault record (10_state.md R31) -/
  info : Option FaultInfo
  /-- the program store: the element at index `e` is `PMEM[e]`, and its length is `L` (20_memory.md R50) -/
  pmem : List Element
  /-- the step budget `MAX_STEPS` (10_state.md R32) -/
  maxSteps : Nat
deriving DecidableEq, Repr

/-- The state after the launch of a valid program (10_state.md R35, 70_reset_and_hazards.md R182). The record `cause`,
`info` is unspecified there; DESIGN CHOICE, log 4: `none`. Unsafe. -/
def State.launched (program : List Element) (a b c : Nat) (maxSteps : Nat) : State :=
  { a := a, b := b, c := c, pc := 0, out := [], status := .running, steps := 0, cause := none, info := none,
    pmem := program, maxSteps := maxSteps }

/-- The machine after reset. Reset is launch (70_reset_and_hazards.md R180) and supplies everything the launch supplies;
with nothing supplied, DESIGN CHOICE, log 3: no program loaded, the registers and the step budget zero. Unsafe. -/
def State.reset : State := State.launched [] 0 0 0 0

end Sys2Proof.Machine
end

