-- ==== Sys2Proof/Machine/Ops.lean ====
section
/-! DEFINITION. The operations every instruction and the run loop share: registers, program store, output stream, the
arithmetic units (41_divide_shift.md R114), completing a step, taking a fault (60_exceptions.md R159). -/

namespace Sys2Proof.Machine

/-! ### Registers -/

/-- `x[r]` (00_scope.md R8). No register is hard-wired or aliased (10_state.md R21). -/
def readReg (s : State) (r : Reg) : Nat :=
  match r with
  | .A => s.a
  | .B => s.b
  | .C => s.c

/-- `x[r] <- v` (00_scope.md R8). -/
def writeReg (s : State) (r : Reg) (v : Nat) : State :=
  match r with
  | .A => { s with a := v }
  | .B => { s with b := v }
  | .C => { s with c := v }

/-- The register numbers of 10_state.md R21. -/
def regNumber : Reg → Nat
  | .A => 0
  | .B => 1
  | .C => 2

/-! ### Program store -/

/-- `L`, the program length in elements (10_state.md R32). -/
def progLen (s : State) : Nat := s.pmem.length

/-- `N = L / 2`, the number of instructions (10_state.md R32). -/
def instrCount (s : State) : Nat := progLen s / 2

/-- `PMEM[e]`; `none` outside `[0, L)`, where no element exists (20_memory.md R50, R56). -/
def readPmem (s : State) (e : Nat) : Option Element := s.pmem[e]?

/-- The canonical form of the program store: whole instructions only (30_encoding.md R70, R73). That the elements are
3-bit is in their type, and that the addresses are `0 .. L - 1` without gap is in the list (log 10). -/
def Memory.wf (m : List Element) : Bool := m.length % 2 == 0

/-- `pc < N` makes the element at `2 * pc + 1` exist (20_memory.md R63). -/
theorem fetch_in_range {s : State} (h : s.pc < instrCount s) : 2 * s.pc + 1 < s.pmem.length := by
  unfold instrCount progLen at h
  omega

/-- `Fetch(pc)`: the opcode element at `2 * pc` and the operand element at `2 * pc + 1`, defined only for `pc < N`
(40_execution_cycle.md R92, 00_scope.md R8). It cannot fault and changes nothing (20_memory.md R55). -/
def fetch (s : State) (h : s.pc < instrCount s) : Element × Element :=
  (s.pmem[2 * s.pc]'(Nat.lt_of_succ_lt (fetch_in_range h)), s.pmem[2 * s.pc + 1]'(fetch_in_range h))

/-! ### Arithmetic units -/

/-- The bit length of `v`: the least `n` with `v < 2^n` (10_state.md R23). -/
def bitLength (v : Nat) : Nat := if v = 0 then 0 else v.log2 + 1

/-- `lsr(a, k) = floor(a / 2^k)` (41_divide_shift.md R110). As R110 asks, a shift amount of the bit length or more gives
0 without building `2^k`; the amount is never reduced modulo a width (93_implementation_defined.md U18). -/
def lsr (a k : Nat) : Nat := if bitLength a ≤ k then 0 else a >>> k

/-- `v xor w`, bit by bit (00_scope.md R8). -/
def bitXor (v w : Nat) : Nat := v ^^^ w

/-- `v mod 8 = v[2:0]` as an element (00_scope.md R6, R8). -/
def low3 (v : Nat) : Element := BitVec.ofNat 3 v

/-- `zext_W(e)`: the element taken as a register value (00_scope.md R7). -/
def zext (e : Element) : Nat := e.toNat

/-! ### Ending a step -/

/-- `Emit(e)`: append to the output stream, which has no capacity limit (10_state.md R27, 00_scope.md R8). -/
def emit (s : State) (e : Element) : State := { s with out := s.out ++ [e] }

/-- A step completes with the next instruction index `t`: `pc <- t` and `steps + 1` take effect with its writes
(40_execution_cycle.md R91, R98). -/
def completeAt (s : State) (t : Nat) : State := { s with pc := t, steps := s.steps + 1 }

/-- A step completes with the default control flow, `pc <- pc + 1` (40_execution_cycle.md R96). -/
def completeNext (s : State) : State := completeAt s (s.pc + 1)

/-- The run ends normally: the halt test changes `status` alone (40_execution_cycle.md R97). -/
def halt (s : State) : State := { s with status := .halted }

/-- TAKING A FAULT, the one shared operation: `status`, `cause` and `info` are written and nothing else changes; `pc`
stays at the faulting instruction, `steps` is not incremented, no handler is entered (60_exceptions.md R159, R160). There
is no return from a fault (60_exceptions.md R162), so no operation stands beside it. -/
def takeFault (s : State) (cause : Fault) (reason : Reason) (opcode operand : Option Element) : State :=
  { s with status := .fault, cause := some cause,
           info := some { reason := reason, pc := s.pc, opcode := opcode, operand := operand } }

/-- `raise InvalidOperand(reason)` by the instruction `i`; the record holds its two elements (60_exceptions.md R160). -/
def raiseInvalidOperand (s : State) (i : Instr) (reason : Reason) : State :=
  takeFault s .invalidOperand reason (some (opcodeOf i)) (some i.operand)

/-- `raise StepBudgetExceeded`; no instruction was fetched, so none is recorded (60_exceptions.md R155, R160). -/
def raiseStepBudgetExceeded (s : State) : State :=
  takeFault s .stepBudgetExceeded .budget none none

/-! ### Codes, for an implementation that needs them -/

/-- `RUNNING` = 0, `HALTED` = 1, `FAULT` = 2 (10_state.md R29). -/
def Status.code : Status → Nat
  | .running => 0
  | .halted => 1
  | .fault => 2

/-- The cause codes of 60_exceptions.md R150. -/
def Fault.code : Fault → Nat
  | .malformedProgram => 1
  | .invalidOperand => 2
  | .stepBudgetExceeded => 3

/-- The code of the state's `cause`; 0 means no fault (92_eei_decisions.md D12). -/
def causeCode (s : State) : Nat :=
  match s.cause with
  | none => 0
  | some f => f.code

/-! ### Placing one instruction -/

/-- `m` with the element pair at addresses `2 * i` and `2 * i + 1`; a shorter program is first filled up to `2 * i` with
zero elements. A tool for asking what the next step does with a given instruction, no operation of the hardware: the
program store is immutable during a run (20_memory.md R51). -/
def placePair (m : List Element) (i : Nat) (opcode operand : Element) : List Element :=
  let filled := m ++ List.replicate (2 * i + 2 - m.length) 0#3
  (filled.set (2 * i) opcode).set (2 * i + 1) operand

/-- `s` with the instruction of the 6-bit word `w` where the next pass fetches, and with all that pass needs to execute
it: status `RUNNING` and a step budget not used up (log 8). A number of more than six bits is no instruction, and leaves
`s` as it is. -/
def placeInstrWord (s : State) (w : Nat) : State :=
  if w < 64 then
    { s with
      status := .running
      maxSteps := if s.steps = s.maxSteps then s.maxSteps + 1 else s.maxSteps
      pmem := placePair s.pmem s.pc (opcodeField (BitVec.ofNat 6 w)) (operandField (BitVec.ofNat 6 w)) }
  else s

end Sys2Proof.Machine
end

