-- ==== Sys2Proof/Machine/Operands.lean ====
section
/-! DEFINITION. Operand resolution: the two operand forms of the hardware (40_execution_cycle.md R94, R95). -/

namespace Sys2Proof.Machine

/-- `literal(o)`: the element itself; it reads no register and cannot fault (40_execution_cycle.md R94). -/
def literal (o : Element) : Nat := o.toNat

/-- `combo(o)`: 0 to 3 themselves, 4, 5, 6 the register A, B, C as it stands at the start of the step, and `none` for 7,
whose resolution raises `InvalidOperand` (40_execution_cycle.md R95). -/
def combo (s : State) (o : Element) : Option Nat :=
  if o ≤ 3#3 then some (zext o)
  else if o = 4#3 then some (readReg s .A)
  else if o = 5#3 then some (readReg s .B)
  else if o = 6#3 then some (readReg s .C)
  else none

/-- Resolve the combo operand of `i`, then go on with its value; a reserved operand takes the fault before anything is
written (60_exceptions.md R152). Every outcome is a next state. -/
def withCombo (i : Instr) (s : State) (k : Nat → State) : Host.Outcome State Fault Refusal :=
  match combo s i.operand with
  | some v => .next (k v)
  | none => .next (raiseInvalidOperand s i .combo7)

end Sys2Proof.Machine
end

