-- ==== Sys2Proof/Machine/Flags.lean ====
section
/-! DEFINITION. The hardware has no flags, condition codes or predicates (10_state.md R33), so no flag is computed. The
one condition of the machine is a comparison of register A with zero, and the one check is that of a jump target. -/

namespace Sys2Proof.Machine

/-- The condition of `jnz`: register A itself, all its bits, compared with zero (43_control_jnz.md R130). -/
def jumpTaken (s : State) : Bool := readReg s .A != 0

/-- The check of a taken jump's raw offset `t`, `JumpOdd` before `JumpOutOfBounds`; `t = L` is out of bounds
(43_control_jnz.md R132). `none` means a legal target. The readings are the spec's decisions D5, D6, D10, log 11. -/
def jumpFault (s : State) (t : Nat) : Option Reason :=
  if t % 2 = 1 then some .jumpOdd
  else if progLen s ≤ t then some .jumpOutOfBounds
  else none

end Sys2Proof.Machine
end

