-- ==== Sys2Proof/Machine/Bitwise.lean ====
section
/-! DEFINITION. The bitwise family: `bxl`, `bst`, `bxc` (42_bitwise.md). -/

namespace Sys2Proof.Machine

/-- `bxl`: B <- B xor literal(o), the literal zero-extended; it cannot fault (42_bitwise.md R120). -/
def execBxl (o : Element) (s : State) : Host.Outcome State Fault Refusal :=
  .next (completeNext (writeReg s .B (bitXor (readReg s .B) (literal o))))

/-- `bst`: B <- combo(o) mod 8 (42_bitwise.md R121). -/
def execBst (o : Element) (s : State) : Host.Outcome State Fault Refusal :=
  withCombo (.bst o) s fun v => completeNext (writeReg s .B (zext (low3 v)))

/-- `bxc`: B <- B xor C; the operand is fetched and ignored, 7 included (42_bitwise.md R122; decision D8, log 13). -/
def execBxc (_o : Element) (s : State) : Host.Outcome State Fault Refusal :=
  .next (completeNext (writeReg s .B (bitXor (readReg s .B) (readReg s .C))))

end Sys2Proof.Machine
end

