-- ==== Sys2Proof/Machine/Control.lean ====
section
/-! DEFINITION. Control transfer: `jnz` (43_control_jnz.md). -/

namespace Sys2Proof.Machine

/-- `jnz`: with A = 0 go on, the operand not examined (decision D7, log 12); else jump to instruction index
`literal(o) / 2`, or take the fault of an illegal target before `pc` is written (43_control_jnz.md R130, R131, R132). -/
def execJnz (o : Element) (s : State) : Host.Outcome State Fault Refusal :=
  if jumpTaken s then
    match jumpFault s (literal o) with
    | some reason => .next (raiseInvalidOperand s (.jnz o) reason)
    | none => .next (completeAt s (literal o / 2))
  else .next (completeNext s)

end Sys2Proof.Machine
end

