-- ==== Sys2Proof/Machine/Divide.lean ====
section
/-! DEFINITION. The divide family: `adv`, `bdv`, `cdv` (41_divide_shift.md). -/

namespace Sys2Proof.Machine

/-- Divide A by two to the combo operand, result to `dest`: the operation the family shares (41_divide_shift.md R110).
The shift amount and A are read before `dest` is written. -/
def divideInto (dest : Reg) (i : Instr) (s : State) : Host.Outcome State Fault Refusal :=
  withCombo i s fun k => completeNext (writeReg s dest (lsr (readReg s .A) k))

/-- `adv`: A <- A / 2^combo(o) (41_divide_shift.md R111). -/
def execAdv (o : Element) (s : State) : Host.Outcome State Fault Refusal := divideInto .A (.adv o) s

/-- `bdv`: B <- A / 2^combo(o) (41_divide_shift.md R112). -/
def execBdv (o : Element) (s : State) : Host.Outcome State Fault Refusal := divideInto .B (.bdv o) s

/-- `cdv`: C <- A / 2^combo(o) (41_divide_shift.md R113). -/
def execCdv (o : Element) (s : State) : Host.Outcome State Fault Refusal := divideInto .C (.cdv o) s

end Sys2Proof.Machine
end

