-- ==== Sys2Proof/Machine/Output.lean ====
section
/-! DEFINITION. Output: `out` (44_output.md). -/

namespace Sys2Proof.Machine

/-- `out`: emit combo(o) mod 8; the run goes on (44_output.md R140, R143). -/
def execOut (o : Element) (s : State) : Host.Outcome State Fault Refusal :=
  withCombo (.out o) s fun v => completeNext (emit s (low3 v))

end Sys2Proof.Machine
end

