-- ==== Sys2Proof/Machine/RunLoop.lean ====
section
/-! DEFINITION. One pass of the run loop (40_execution_cycle.md R91). -/

namespace Sys2Proof.Machine

/-- The body of the run loop, entered with status `RUNNING`: the halt test, then the step budget, then fetch and execute;
the order is normative (40_execution_cycle.md R91, 60_exceptions.md R158). -/
def runPass (s : State) : Host.Outcome State Fault Refusal :=
  if h : s.pc < instrCount s then
    if s.steps = s.maxSteps then .next (raiseStepBudgetExceeded s)
    else exec (decode (fetch s h).1 (fetch s h).2) s
  else .next (halt s)

/-- A state whose run is over takes no step (10_state.md R29). DESIGN CHOICE, log 5, 6, 7: `HALTED` stays as it is, and
`FAULT` answers its cause, which is propagated and never silently ignored (60_exceptions.md R159). -/
def passOf (s : State) : Host.Outcome State Fault Refusal :=
  match s.status with
  | .running => runPass s
  | .halted => .next s
  | .fault =>
    match s.cause with
    | some f => .fault f
    | none => .refused .noCauseRecorded

end Sys2Proof.Machine
end

