-- ==== Sys2Proof/Machine/Step.lean ====
section
/-! DEFINITION. The step: one pass of the run loop (40_execution_cycle.md R91, R102). -/

namespace Sys2Proof.Machine

/-- One pass of the run loop. -/
def step (s : State) : Host.Outcome State Fault Refusal := passOf s

/-- `s` with the opcode-table word `w` where `step` fetches its next instruction, and with all that step needs to run it
(log 8). An instruction is one 6-bit word without further operand words, so `nbits` decides nothing. -/
def State.withFetchWord (s : State) (_nbits w : Nat) : State := placeInstrWord s w

end Sys2Proof.Machine
end

