-- ==== Sys2Proof/Machine/Launch.lean ====
section
/-! DEFINITION. The two host transactions and the run between them (70_reset_and_hazards.md R181, R184;
40_execution_cycle.md R91, R99). -/

namespace Sys2Proof.Machine

/-- The values a launch supplies: the flat program, as natural numbers so that an out-of-range element can be presented
(92_eei_decisions.md D19), the three registers and the step budget. None is defaulted (70_reset_and_hazards.md R183). -/
structure LaunchArgs where
  program : List Nat
  a : Nat
  b : Nat
  c : Nat
  maxSteps : Nat
deriving DecidableEq, Repr

/-- All three register values can be presented to this implementation (10_state.md R24). -/
def registersPresentable (cfg : Config) (args : LaunchArgs) : Bool :=
  cfg.holdsValue args.a && cfg.holdsValue args.b && cfg.holdsValue args.c

/-- Launch (70_reset_and_hazards.md R181): reject a malformed program, else create the state of R182. What an
implementation of finite `W` or `LMAX` cannot be presented with is refused, a register first and a long program last
(log 16). DESIGN CHOICE, log 22: `Config.valid` is not consulted, so that parameters outside R5's constraints, for which
the spec gives no behaviour, are taken as they are. Unsafe there. -/
def launch (cfg : Config) (args : LaunchArgs) : Host.Outcome State Fault Refusal :=
  if registersPresentable cfg args then
    if programValid args.program then
      if cfg.holdsProgram args.program.length then
        .next (State.launched (toElements args.program) args.a args.b args.c args.maxSteps)
      else .refused .programTooLong
    else .fault .malformedProgram
  else .refused .registerOutOfRange

/-- At most `fuel` passes of the run loop, ending when the status is no longer `RUNNING` (40_execution_cycle.md R91). -/
def runLoop : Nat → State → State
  | 0, s => s
  | fuel + 1, s =>
    if s.status = .running then
      match step s with
      | .next t => runLoop fuel t
      | .fault _ => s
      | .refused _ => s
    else s

/-- The run loop to the end of the run: the remaining step budget and one more pass lose no behaviour
(40_execution_cycle.md R101). -/
def runToEnd (s : State) : State := runLoop (s.maxSteps - s.steps + 1) s

/-- The two shapes of a run's result (00_scope.md R8). -/
inductive RunResult where
  /-- `Ok(out)`: the whole output sequence of a run that halted -/
  | ok (out : List Element)
  /-- `Err(cause)`: the fault cause and nothing else (60_exceptions.md R161) -/
  | err (cause : Fault)
deriving DecidableEq, Repr

/-- The Result transaction (40_execution_cycle.md R99, 70_reset_and_hazards.md R184): nothing while the run goes on,
`Ok(out)` when `HALTED`, `Err(cause)` when `FAULT`. -/
def result (s : State) : Option RunResult :=
  match s.status with
  | .running => none
  | .halted => some (.ok s.out)
  | .fault => s.cause.map .err

/-- `run(...)`: launch, run loop, result (70_reset_and_hazards.md R181). `none` when the launch was refused, so that there
was no run. The final state, the debug view of R184, is `runToEnd` of the launched state. -/
def run (cfg : Config) (args : LaunchArgs) : Option RunResult :=
  match launch cfg args with
  | .next s => result (runToEnd s)
  | .fault f => some (.err f)
  | .refused _ => none

/-- `a` is a quine value of the valid program `p` (70_reset_and_hazards.md R192): launched with B = C = 0, the program
emits itself, element for element. -/
def isQuineValue (cfg : Config) (p : List Nat) (maxSteps : Nat) (a : Nat) : Prop :=
  programValid p = true ∧
    run cfg { program := p, a := a, b := 0, c := 0, maxSteps := maxSteps } = some (.ok (toElements p))

/-- `a` is the least quine value of `p`: what the excluded `invert(p)` is specified to return (70_reset_and_hazards.md
R192). The hardware does not compute it. -/
def isLeastQuineValue (cfg : Config) (p : List Nat) (maxSteps : Nat) (a : Nat) : Prop :=
  isQuineValue cfg p maxSteps a ∧ ∀ a', isQuineValue cfg p maxSteps a' → a ≤ a'

/-- The canonical textual rendering of an output sequence, comma-joined decimal digits (30_encoding.md R84). -/
def render (out : List Element) : String := ",".intercalate (out.map fun e => toString e.toNat)

end Sys2Proof.Machine
end

