-- ==== Sys2Proof/Safety.lean ====
section
/-! DEFINITION. What claims about this machine use: the invariant of a run, the width bound of its registers, and what a
well-formed program and a safe state are. -/

namespace Sys2Proof.Machine

/-- The fault record agrees with the status (10_state.md R29, R31; 60_exceptions.md R160): in `FAULT` the cause is one
that a run raises, and the record names the instruction at `pc`, with the elements fetched there unless the budget ran
out. Outside `FAULT` nothing is asked of `cause` and `info`: they are unspecified there. -/
def FaultRecordOk (s : State) : Prop :=
  s.status = .fault →
    s.pc < instrCount s ∧
    ((s.cause = some .stepBudgetExceeded ∧ s.steps = s.maxSteps ∧
        s.info = some { reason := .budget, pc := s.pc, opcode := none, operand := none }) ∨
     (s.cause = some .invalidOperand ∧ s.steps ≠ s.maxSteps ∧
        ∃ reason, reason ≠ Reason.budget ∧
          s.info = some { reason := reason, pc := s.pc, opcode := readPmem s (2 * s.pc),
                          operand := readPmem s (2 * s.pc + 1) }))

/-- The invariant of a run: the program store holds whole instructions (30_encoding.md R73), `0 <= pc <= N` (10_state.md
R26), `steps <= MAX_STEPS` (R30), the output is no longer than the steps taken (R28), `HALTED` means `pc = N`
(70_reset_and_hazards.md R190), and the fault record agrees with the status. -/
structure RunInv (s : State) : Prop where
  storeWf : Memory.wf s.pmem = true
  pcInRange : s.pc ≤ instrCount s
  stepsInBudget : s.steps ≤ s.maxSteps
  outWithinSteps : s.out.length ≤ s.steps
  haltedAtEnd : s.status = .halted → s.pc = instrCount s
  faultRecord : FaultRecordOk s

/-- All three registers hold values below `2^m` (10_state.md R23). -/
def FitsBits (m : Nat) (s : State) : Prop := s.a < 2 ^ m ∧ s.b < 2 ^ m ∧ s.c < 2 ^ m

/-- The program in the store is well-formed in the source's sense (00_scope.md glossary): no reserved combo operand, and
every jump target even and inside the program. The hardware does not require it. -/
def WellFormedProgram (s : State) : Prop :=
  ∀ i ∈ decodeProgram s.pmem, Instr.wellFormed (progLen s) i = true

/-- A safe state: the run has not ended in `InvalidOperand`. -/
def NoInvalidOperand (s : State) : Prop := s.status = .fault → s.cause ≠ some .invalidOperand

/-- A run is over exactly when the status is `HALTED` or `FAULT` (70_reset_and_hazards.md R190). -/
def RunOver (s : State) : Prop := s.status = .halted ∨ s.status = .fault

end Sys2Proof.Machine
end

