-- ==== Sys2Proof/Certificates/Slice0/Obligations.lean ====
section
/-! DEFINITION. The statements about the model, each a `Prop` for the provers, and the few words of the spec they are
written in. The words under `Sys2Proof.Spec` are transcribed from the rules and use none of the model's operations. -/

namespace Sys2Proof.Spec

open Sys2Proof.Machine

/-- `combo(o) = v` (40_execution_cycle.md R95), as a relation; no `v` for the reserved operand 7. -/
def ComboValue (s : State) (o : Element) (v : Nat) : Prop :=
  (o.toNat ≤ 3 ∧ v = o.toNat) ∨ (o = 4#3 ∧ v = s.a) ∨ (o = 5#3 ∧ v = s.b) ∨ (o = 6#3 ∧ v = s.c)

/-- The state after a fault (60_exceptions.md R159, R160): `status`, `cause` and `info` recorded, nothing else changed. -/
def faulted (s : State) (cause : Fault) (reason : Reason) (opcode operand : Option Element) : State :=
  { s with
    status := .fault
    cause := some cause
    info := some { reason := reason, pc := s.pc, opcode := opcode, operand := operand } }

/-- The state after a fault of the instruction with elements `opcode`, `operand`. -/
def operandFault (s : State) (reason : Reason) (opcode operand : Element) : State :=
  faulted s .invalidOperand reason (some opcode) (some operand)

/-- The state after the budget fault, which records no elements (60_exceptions.md R155, R160). -/
def budgetFault (s : State) : State := faulted s .stepBudgetExceeded .budget none none

/-- The `Step` function of 40_execution_cycle.md R102, line by line, with a truncation applied to every value written to a
register: `id` for unbounded registers, `· % 2^W` for registers of `W` bits. -/
def stepWith (trunc : Nat → Nat) (s : State) : State :=
  if s.pmem.length / 2 ≤ s.pc then { s with status := .halted }
  else if s.steps = s.maxSteps then budgetFault s
  else
    let opc := s.pmem.getD (2 * s.pc) 0#3
    let o := s.pmem.getD (2 * s.pc + 1) 0#3
    let cv : Option Nat :=
      if o.toNat ≤ 3 then some o.toNat
      else if o.toNat = 4 then some s.a
      else if o.toNat = 5 then some s.b
      else if o.toNat = 6 then some s.c
      else none
    let onward : State := { s with pc := s.pc + 1, steps := s.steps + 1 }
    let withCv (f : Nat → State) : State :=
      match cv with
      | none => operandFault s .combo7 opc o
      | some v => f v
    if opc.toNat = 0 then withCv fun v => { onward with a := trunc (s.a / 2 ^ v) }
    else if opc.toNat = 1 then { onward with b := trunc (s.b ^^^ o.toNat) }
    else if opc.toNat = 2 then withCv fun v => { onward with b := trunc (v % 8) }
    else if opc.toNat = 3 then
      if s.a = 0 then onward
      else if o.toNat % 2 = 1 then operandFault s .jumpOdd opc o
      else if s.pmem.length ≤ o.toNat then operandFault s .jumpOutOfBounds opc o
      else { onward with pc := o.toNat / 2 }
    else if opc.toNat = 4 then { onward with b := trunc (s.b ^^^ s.c) }
    else if opc.toNat = 5 then withCv fun v => { onward with out := s.out ++ [BitVec.ofNat 3 v] }
    else if opc.toNat = 6 then withCv fun v => { onward with b := trunc (s.a / 2 ^ v) }
    else withCv fun v => { onward with c := trunc (s.a / 2 ^ v) }

/-- The registers an instruction reads, by the table of 10_state.md R22. -/
def reads : Instr → List Reg
  | .adv o => .A :: comboReads o
  | .bxl _ => [.B]
  | .bst o => comboReads o
  | .jnz _ => [.A]
  | .bxc _ => [.B, .C]
  | .out o => comboReads o
  | .bdv o => .A :: comboReads o
  | .cdv o => .A :: comboReads o
where
  /-- the register a combo selector names, if any -/
  comboReads (o : Element) : List Reg :=
    if o = 4#3 then [.A] else if o = 5#3 then [.B] else if o = 6#3 then [.C] else []

/-- The register an instruction writes, by the table of 10_state.md R22. -/
def writes : Instr → Option Reg
  | .adv _ => some .A
  | .bxl _ => some .B
  | .bst _ => some .B
  | .jnz _ => none
  | .bxc _ => some .B
  | .out _ => none
  | .bdv _ => some .B
  | .cdv _ => some .C

/-- The contents of a register. -/
def regOf (s : State) : Reg → Nat
  | .A => s.a
  | .B => s.b
  | .C => s.c

/-- What no instruction changes, and what it may change of the control record: the program store, element by element, and
the step budget stay; `status`, `cause` and `info` stay, or the step is a fault entry that leaves every register, `pc`,
`out` and `steps` as they were. -/
def ControlFrame (s t : State) : Prop :=
  (∀ e, readPmem t e = readPmem s e) ∧ t.maxSteps = s.maxSteps ∧
    ((t.status = s.status ∧ t.cause = s.cause ∧ t.info = s.info) ∨
     (t.status = .fault ∧ t.a = s.a ∧ t.b = s.b ∧ t.c = s.c ∧ t.pc = s.pc ∧ t.out = s.out ∧ t.steps = s.steps))

/-- The values of a launch can be presented to this implementation: its registers hold the three values, its store the
program (00_scope.md R5, R7). -/
def Presentable (cfg : Config) (args : LaunchArgs) : Prop :=
  (∀ w, cfg.W = some w → args.a < 2 ^ w ∧ args.b < 2 ^ w ∧ args.c < 2 ^ w) ∧
    (∀ n, cfg.LMAX = some n → args.program.length ≤ n)

end Sys2Proof.Spec

open Sys2Proof Sys2Proof.Machine Sys2Proof.Spec

/-! ### Encoding -/

/-- R78: every element pair decodes, by its opcode alone, to the instruction of R77's row, the operand handed on. -/
def Obligations.DecodeIsTotalByOpcode : Prop :=
  ∀ o : Element,
    decode 0#3 o = .adv o ∧ decode 1#3 o = .bxl o ∧ decode 2#3 o = .bst o ∧ decode 3#3 o = .jnz o ∧
    decode 4#3 o = .bxc o ∧ decode 5#3 o = .out o ∧ decode 6#3 o = .bdv o ∧ decode 7#3 o = .cdv o

/-- Words written out from R77's patterns and from vectors E1 to E11 decode to their instructions. -/
def Obligations.WrittenOutWordsDecode : Prop :=
  decodeWord 0b000001#6 = .adv 1#3 ∧ decodeWord 0b001111#6 = .bxl 7#3 ∧ decodeWord 0b010110#6 = .bst 6#3 ∧
  decodeWord 0b011000#6 = .jnz 0#3 ∧ decodeWord 0b100111#6 = .bxc 7#3 ∧ decodeWord 0b101100#6 = .out 4#3 ∧
  decodeWord 0b110101#6 = .bdv 5#3 ∧ decodeWord 0b111011#6 = .cdv 3#3 ∧ decodeWord 0b111111#6 = .cdv 7#3

/-- Decode and encode agree in both directions for every instruction, as an element pair, as a 6-bit word and as a number;
a number of more than six bits is no instruction. -/
def Obligations.DecodeEncodeRoundTrip : Prop :=
  (∀ i : Instr, decode (encode i).1 (encode i).2 = i ∧ decodeWord (encodeWord i) = i ∧
    decodeTableWord 8 (encodeWord i).toNat = some i) ∧
  (∀ opcode operand : Element, encode (decode opcode operand) = (opcode, operand)) ∧
  (∀ w : InstrWord, encodeWord (decodeWord w) = w) ∧
  (∀ nbits w : Nat, 64 ≤ w → decodeTableWord nbits w = none)

/-- Decode and encode agree for whole programs: a list of instructions comes back from its flat form, a flat form of even
length comes back from its instructions, and instruction `i` is decoded from elements `2 * i` and `2 * i + 1`. -/
def Obligations.ProgramRoundTrip : Prop :=
  (∀ is : List Instr, decodeProgram (encodeProgram is) = is) ∧
  (∀ p : List Element, p.length % 2 = 0 → encodeProgram (decodeProgram p) = p) ∧
  (∀ (p : List Element) (i : Nat) (opcode operand : Element),
    p[2 * i]? = some opcode → p[2 * i + 1]? = some operand →
      (decodeProgram p)[i]? = some (decode opcode operand))

/-- R72: the flat form of even length `L` and the word form of `L / 2` words are the same program. -/
def Obligations.FlatAndWordFormsAgree : Prop :=
  (∀ p : List Element, p.length % 2 = 0 →
    (wordForm p).length = p.length / 2 ∧ flatForm (wordForm p) = p ∧
    ∀ i (w : InstrWord), (wordForm p)[i]? = some w →
      ∃ x y : Element, p[2 * i]? = some x ∧ p[2 * i + 1]? = some y ∧
        w.toNat = x.toNat * 8 + y.toNat ∧ x.toNat = w.toNat / 8 ∧ y.toNat = w.toNat % 8) ∧
  (∀ ws : List InstrWord, wordForm (flatForm ws) = ws)

/-- Every word belongs to exactly one row of the opcode table, the row of the instruction it decodes to. -/
def Obligations.EveryWordHasOneTableRow : Prop :=
  ∀ w : InstrWord,
    (opcodeTable.filter fun row => row.covers w).map (fun row => row.mnemonic) = [(decodeWord w).mnemonic]

/-! ### Launch -/

/-- R73, R151: a launch is rejected as malformed exactly when the length is odd or an element lies outside [0, 7], and
otherwise creates a run; the registers and the length are such as the implementation can be presented with. A program
longer than a finite store creates no run, and no step of a run raises `MalformedProgram`. That it says so for parameters
outside R5's constraints too is the model's choice (log 22). -/
def Obligations.LoaderAcceptsExactlyValidPrograms : Prop :=
  (∀ (cfg : Config) (args : LaunchArgs), Presentable cfg args →
    ((args.program.length % 2 = 1 ∨ ∃ e ∈ args.program, 7 < e) → launch cfg args = .fault .malformedProgram) ∧
    ((args.program.length % 2 = 0 ∧ ∀ e ∈ args.program, e ≤ 7) → ∃ s, launch cfg args = .next s)) ∧
  (∀ (cfg : Config) (args : LaunchArgs) (n : Nat) (s : State), cfg.LMAX = some n → n < args.program.length →
    launch cfg args ≠ .next s) ∧
  (∀ s t : State, s.status = .running → step s = .next t → t.status = .fault → t.cause ≠ some .malformedProgram)

/-- R182: the state after a launch that creates a run; `cause` and `info` are left out, as unspecified. -/
def Obligations.LaunchCreatesTheInitialState : Prop :=
  ∀ (cfg : Config) (args : LaunchArgs) (s : State), launch cfg args = .next s →
    s.pc = 0 ∧ s.out = [] ∧ s.steps = 0 ∧ s.status = .running ∧
    s.a = args.a ∧ s.b = args.b ∧ s.c = args.c ∧ s.maxSteps = args.maxSteps ∧
    s.pmem.length = args.program.length ∧
    ∀ e : Nat, (readPmem s e).map BitVec.toNat = args.program[e]?

/-- What an implementation of finite `W` or `LMAX` cannot be presented with is refused under a name of its own. The names
and their order are the model's (log 16); that there is no run is the spec's (U3, U11). -/
def Obligations.UnpresentableLaunchIsRefused : Prop :=
  ∀ (cfg : Config) (args : LaunchArgs),
    (∀ w, cfg.W = some w → (2 ^ w ≤ args.a ∨ 2 ^ w ≤ args.b ∨ 2 ^ w ≤ args.c) →
      launch cfg args = .refused .registerOutOfRange) ∧
    (∀ n, cfg.LMAX = some n → n < args.program.length →
      (∀ w, cfg.W = some w → args.a < 2 ^ w ∧ args.b < 2 ^ w ∧ args.c < 2 ^ w) →
      args.program.length % 2 = 0 → (∀ e ∈ args.program, e ≤ 7) →
      launch cfg args = .refused .programTooLong)

/-- The invariant of a run holds after every launch that creates one. -/
def Obligations.LaunchEstablishesInv : Prop :=
  ∀ (cfg : Config) (args : LaunchArgs) (s : State), launch cfg args = .next s → RunInv s

/-- The invariant of a run holds in the reset state. -/
def Obligations.ResetSatisfiesInv : Prop := RunInv State.reset

/-! ### The step and the run loop -/

/-- R92: a running machine with `pc < N` and budget left fetches the pair at `2 * pc` and `2 * pc + 1` and executes what
that pair decodes to. -/
def Obligations.StepRunsTheDecodedInstruction : Prop :=
  ∀ s : State, s.status = .running → s.pc < s.pmem.length / 2 → s.steps ≠ s.maxSteps →
    ∃ opcode operand : Element,
      readPmem s (2 * s.pc) = some opcode ∧ readPmem s (2 * s.pc + 1) = some operand ∧
      ∀ i : Instr, decode opcode operand = i → step s = exec i s

/-- R97: the halt test of a running machine changes `status` alone, is the only way to halt, and lets the output be
returned; in a state of a run it is met exactly at `pc = N`, which only the `pc + 1` of an instruction reaches. -/
def Obligations.HaltTestEndsTheRunNormally : Prop :=
  ∀ s : State, s.status = .running →
    (s.pmem.length / 2 ≤ s.pc → step s = .next { s with status := .halted }) ∧
    result { s with status := .halted } = some (.ok s.out) ∧
    (∀ t : State, step s = .next t → t.status = .halted → s.pmem.length / 2 ≤ s.pc) ∧
    (RunInv s → (s.pmem.length / 2 ≤ s.pc ↔ s.pc = s.pmem.length / 2) ∧
      ∀ t : State, step s = .next t → t.pc = s.pmem.length / 2 → t.pc ≠ s.pc → t.pc = s.pc + 1)

/-- R155: `StepBudgetExceeded` is raised exactly when the run needs a step beyond the budget; a run that halts with the
budget used up does not fault. -/
def Obligations.BudgetFaultIsRaisedBetweenSteps : Prop :=
  ∀ s : State, s.status = .running →
    (s.pc < s.pmem.length / 2 → s.steps = s.maxSteps → step s = .next (budgetFault s)) ∧
    (s.pmem.length / 2 ≤ s.pc → s.steps = s.maxSteps → step s = .next { s with status := .halted }) ∧
    (∀ t : State, step s = .next t → t.status = .fault → t.cause = some .stepBudgetExceeded →
      s.pc < s.pmem.length / 2 ∧ s.steps = s.maxSteps)

/-- R158: the halt test, then the step budget, then the instruction's own fault; `Combo7` arises only in the five combo
instructions, the jump reasons only in `jnz`, and `JumpOdd` goes before `JumpOutOfBounds`. -/
def Obligations.TestsHaveTheirPriority : Prop :=
  (∀ s : State, s.status = .running → s.pmem.length / 2 ≤ s.pc → step s = .next { s with status := .halted }) ∧
  (∀ s : State, s.status = .running → s.pc < s.pmem.length / 2 → s.steps = s.maxSteps →
    step s = .next (budgetFault s)) ∧
  (∀ (i : Instr) (s t : State), s.status = .running → exec i s = .next t → t.status = .fault →
    ∃ info, t.info = some info ∧
      ((info.reason = .combo7 ∧
          ∃ o, i = .adv o ∨ i = .bst o ∨ i = .out o ∨ i = .bdv o ∨ i = .cdv o) ∨
       ((info.reason = .jumpOdd ∨ info.reason = .jumpOutOfBounds) ∧ ∃ o, i = .jnz o))) ∧
  (∀ (o : Element) (s : State), s.a ≠ 0 → o.toNat % 2 = 1 → s.pmem.length ≤ o.toNat →
    exec (.jnz o) s = .next (operandFault s .jumpOdd 3#3 o))

/-- R102: the step of a running machine is the spec's `Step` function, for every state. -/
def Obligations.StepIsTheSpecsStepFunction : Prop :=
  ∀ s : State, s.status = .running → step s = .next (stepWith id s)

/-- The spec takes no step in `HALTED` or `FAULT`. That a halted machine answers itself and a faulted one its cause is the
model's choice (log 5, log 6). -/
def Obligations.FinalStatesStayFinal : Prop :=
  (∀ s : State, s.status = .halted → step s = .next s) ∧
  (∀ (s : State) (f : Fault), s.status = .fault → s.cause = some f → step s = .fault f)

/-- R160: a fault is precise: at fault entry the registers, `pc`, `out` and `steps` hold the values of the start of the
pass, and the record names the reason, `pc` and, but for the budget, the two elements fetched there. -/
def Obligations.FaultsArePrecise : Prop :=
  ∀ s t : State, s.status = .running → step s = .next t → t.status = .fault →
    ∃ reason, ∃ opcode operand : Option Element,
      (reason = .budget → opcode = none ∧ operand = none) ∧
      (reason ≠ .budget → opcode = readPmem s (2 * s.pc) ∧ operand = readPmem s (2 * s.pc + 1)) ∧
      t = faulted s (if reason = .budget then .stepBudgetExceeded else .invalidOperand) reason opcode operand

/-- R30: a completed instruction adds exactly one to `steps`, a faulting one adds nothing; 0 at launch. -/
def Obligations.StepCounterCountsCompletedInstructions : Prop :=
  (∀ (cfg : Config) (args : LaunchArgs) (s : State), launch cfg args = .next s → s.steps = 0) ∧
  (∀ (i : Instr) (s : State), s.status = .running → ∃ t, exec i s = .next t ∧
    ((t.status = .running ∧ t.steps = s.steps + 1) ∨ (t.status = .fault ∧ t.steps = s.steps))) ∧
  (∀ s : State, s.status = .running → s.pc < s.pmem.length / 2 → s.steps = s.maxSteps →
    step s = .next (budgetFault s))

/-- R96: `pc` advances by one after any instruction but a taken `jnz`; a faulting step leaves it. -/
def Obligations.DefaultControlFlowAdvances : Prop :=
  ∀ (i : Instr) (s t : State), s.status = .running → exec i s = .next t →
    (t.status = .fault → t.pc = s.pc) ∧
    (t.status ≠ .fault → (∀ o, i ≠ .jnz o) → t.pc = s.pc + 1) ∧
    (∀ o, i = .jnz o → s.a = 0 → t.pc = s.pc + 1)

/-- R51: the program store is written by the launch and by nothing after it; the step budget likewise. -/
def Obligations.ProgramStoreIsImmutable : Prop :=
  (∀ (cfg : Config) (args : LaunchArgs) (s : State), launch cfg args = .next s →
    ∀ e : Nat, (readPmem s e).map BitVec.toNat = args.program[e]?) ∧
  (∀ (i : Instr) (s t : State), exec i s = .next t → t.pmem = s.pmem ∧ t.maxSteps = s.maxSteps) ∧
  (∀ s t : State, step s = .next t → t.pmem = s.pmem ∧ t.maxSteps = s.maxSteps)

/-- The output stream is append-only: a completed `out` appends one element, every other step leaves it. -/
def Obligations.OutputGrowsOnlyByOut : Prop :=
  ∀ (i : Instr) (s t : State), s.status = .running → exec i s = .next t →
    ((∃ o, i = .out o) → t.status ≠ .fault → ∃ e : Element, t.out = s.out ++ [e]) ∧
    ((∀ o, i ≠ .out o) → t.out = s.out) ∧
    (t.status = .fault → t.out = s.out)

/-- R28: along a run the output is never longer than the steps taken, and those never more than the budget. -/
def Obligations.OutputNeverLongerThanSteps : Prop :=
  ∀ (cfg : Config) (args : LaunchArgs) (s : State) (fuel : Nat), launch cfg args = .next s →
    (runLoop fuel s).out.length ≤ (runLoop fuel s).steps ∧ (runLoop fuel s).steps ≤ args.maxSteps

/-- R26: `pc` stays in [0, N]; it reaches `N` only by `pc + 1`, and a taken jump lands below `N` and at most at 3. -/
def Obligations.PcStaysInRange : Prop :=
  ∀ s t : State, RunInv s → step s = .next t →
    t.pc ≤ t.pmem.length / 2 ∧
    (s.pc = s.pmem.length / 2 → t.pc = s.pc) ∧
    (t.pc = t.pmem.length / 2 → t.pc = s.pc ∨ t.pc = s.pc + 1) ∧
    (∀ (o : Element) (u : State), s.status = .running → s.a ≠ 0 → exec (.jnz o) s = .next u → u.status = .running →
      u.pc < u.pmem.length / 2 ∧ u.pc ≤ 3)

/-- Every step keeps the invariant of a run. -/
def Obligations.StepKeepsInv : Prop :=
  ∀ s t : State, RunInv s → step s = .next t → RunInv t

/-- R23: register values never outgrow the widest launch value and three bits, and a machine with registers of `W` bits,
which truncates every value it writes, takes the same step as the unbounded one. -/
def Obligations.WidthDoesNotMatter : Prop :=
  ∀ (m : Nat) (s : State), 3 ≤ m → FitsBits m s → s.status = .running →
    step s = .next (stepWith (fun v => v % 2 ^ m) s) ∧
    ∀ t, step s = .next t → FitsBits m t

/-- A program that is well-formed in the source's sense never ends in `InvalidOperand`. -/
def Obligations.WellFormedProgramsRaiseNoOperandFault : Prop :=
  (∀ s t : State, RunInv s → WellFormedProgram s → NoInvalidOperand s → step s = .next t →
    WellFormedProgram t ∧ NoInvalidOperand t) ∧
  (∀ (cfg : Config) (args : LaunchArgs) (s : State), launch cfg args = .next s → WellFormedProgram s →
    run cfg args ≠ some (.err .invalidOperand))

/-- R101: a run always ends, after at most `MAX_STEPS` completed steps, and fuel `MAX_STEPS + 1` loses no behaviour. -/
def Obligations.RunsAlwaysEnd : Prop :=
  ∀ (cfg : Config) (args : LaunchArgs) (s : State), launch cfg args = .next s →
    RunOver (runLoop (args.maxSteps + 1) s) ∧
    (runLoop (args.maxSteps + 1) s).steps ≤ args.maxSteps ∧
    ∀ k, runLoop (args.maxSteps + 1 + k) s = runLoop (args.maxSteps + 1) s

/-- R99: the result of a run is `Ok(out)` if it ended in `HALTED` and `Err(cause)` if in `FAULT`; every launched run has
one of the two. -/
def Obligations.RunYieldsOkOrErr : Prop :=
  ∀ (cfg : Config) (args : LaunchArgs) (s : State), launch cfg args = .next s →
    ((runToEnd s).status = .halted ∧ run cfg args = some (.ok (runToEnd s).out)) ∨
    ((runToEnd s).status = .fault ∧ ∃ f, (runToEnd s).cause = some f ∧ run cfg args = some (.err f))

/-- R100: the empty program halts at once, whatever the registers and the budget. -/
def Obligations.EmptyProgramHaltsAtOnce : Prop :=
  ∀ (cfg : Config) (args : LaunchArgs), Presentable cfg args → args.program = [] →
    ∃ s, launch cfg args = .next s ∧
      (runToEnd s).status = .halted ∧ (runToEnd s).out = [] ∧ (runToEnd s).steps = 0 ∧
      (runToEnd s).a = args.a ∧ (runToEnd s).b = args.b ∧ (runToEnd s).c = args.c ∧
      run cfg args = some (.ok [])

/-- R193: a larger budget changes no run that halted or faulted within it; a smaller one ends in `StepBudgetExceeded`. -/
def Obligations.BudgetIsMonotone : Prop :=
  ∀ (cfg : Config) (args : LaunchArgs) (s : State), launch cfg args = .next s →
    ∀ (m : Nat) (s' : State), launch cfg { args with maxSteps := m } = .next s' →
      ((runToEnd s).status = .halted →
        ((runToEnd s).steps ≤ m → runToEnd s' = { runToEnd s with maxSteps := m }) ∧
        (m < (runToEnd s).steps →
          (runToEnd s').status = .fault ∧ (runToEnd s').cause = some .stepBudgetExceeded)) ∧
      ((runToEnd s).status = .fault → (runToEnd s).cause = some .invalidOperand →
        ((runToEnd s).steps < m → runToEnd s' = { runToEnd s with maxSteps := m }) ∧
        (m ≤ (runToEnd s).steps →
          (runToEnd s').status = .fault ∧ (runToEnd s').cause = some .stepBudgetExceeded))

/-- A quine value's run emits as many elements as its program has, so its budget is at least the program's length. -/
def Obligations.QuineNeedsAsManyStepsAsElements : Prop :=
  ∀ (cfg : Config) (p : List Nat) (maxSteps : Nat) (a : Nat),
    isQuineValue cfg p maxSteps a → p.length ≤ maxSteps

/-- The host's fixture is right: after placing the word `w`, the next step executes exactly its instruction. That a word is
placed so is the model's choice (log 8). -/
def Obligations.PlacedWordRunsNext : Prop :=
  ∀ (s : State) (nbits w : Nat) (i : Instr), decodeTableWord nbits w = some i →
    step (s.withFetchWord nbits w) = exec i (s.withFetchWord nbits w)

/-- A fault ends the run: the step after a fault entry answers the recorded cause, and the result is that cause alone.
That a step from `FAULT` answers the cause is the model's choice (log 5). -/
def Obligations.FaultEntryEndsTheRun : Prop :=
  ∀ s t : State, s.status = .running → step s = .next t → t.status = .fault →
    ∃ f, t.cause = some f ∧ step t = .fault f ∧ result t = some (.err f) ∧ ∀ fuel, runLoop fuel t = t

/-! ### Operands -/

/-- A combo operand resolves to exactly the value of the spec's table, and has none exactly for 7; a literal is its element. -/
def Obligations.OperandsResolveByTheTable : Prop :=
  ∀ (s : State) (o : Element),
    (∀ v, combo s o = some v ↔ ComboValue s o v) ∧ (combo s o = none ↔ o = 7#3) ∧
    literal o < 8 ∧ (∀ v w, ComboValue s o v → ComboValue s o w → v = w) ∧
    (o ≠ 7#3 → ∃ v, ComboValue s o v)

/-! ### The divide family -/

/-- R111: `adv` with a combo value `k` writes `A / 2^k` to A and nothing else but `pc` and `steps`; with the reserved
operand it takes the fault `Combo7` before any write. -/
def Obligations.AdvDividesAIntoA : Prop :=
  ∀ (s : State) (o : Element),
    decode 0#3 o = .adv o ∧
    (∀ k, ComboValue s o k →
      exec (.adv o) s = .next { s with a := s.a / 2 ^ k, pc := s.pc + 1, steps := s.steps + 1 }) ∧
    (o = 7#3 → exec (.adv o) s = .next (operandFault s .combo7 0#3 7#3))

/-- R112: `bdv` writes `A / 2^k` to B, with the shift amount read before the write; A is not changed. -/
def Obligations.BdvDividesAIntoB : Prop :=
  ∀ (s : State) (o : Element),
    decode 6#3 o = .bdv o ∧
    (∀ k, ComboValue s o k →
      exec (.bdv o) s = .next { s with b := s.a / 2 ^ k, pc := s.pc + 1, steps := s.steps + 1 }) ∧
    (o = 7#3 → exec (.bdv o) s = .next (operandFault s .combo7 6#3 7#3))

/-- R113: `cdv` writes `A / 2^k` to C, and no other instruction writes C. -/
def Obligations.CdvDividesAIntoC : Prop :=
  (∀ (s : State) (o : Element),
    decode 7#3 o = .cdv o ∧
    (∀ k, ComboValue s o k →
      exec (.cdv o) s = .next { s with c := s.a / 2 ^ k, pc := s.pc + 1, steps := s.steps + 1 }) ∧
    (o = 7#3 → exec (.cdv o) s = .next (operandFault s .combo7 7#3 7#3))) ∧
  (∀ (i : Instr) (s t : State), exec i s = .next t → t.c ≠ s.c → ∃ o, i = .cdv o)

/-- The corner cases of R111 to R113: shifting A by itself gives 0, a shift by 0 copies, a shift amount of the bit length
of A or more gives 0, never a reduced shift. -/
def Obligations.DivideCornerCases : Prop :=
  ∀ s : State,
    exec (.adv 4#3) s = .next { s with a := 0, pc := s.pc + 1, steps := s.steps + 1 } ∧
    exec (.bdv 4#3) s = .next { s with b := 0, pc := s.pc + 1, steps := s.steps + 1 } ∧
    exec (.cdv 4#3) s = .next { s with c := 0, pc := s.pc + 1, steps := s.steps + 1 } ∧
    exec (.adv 0#3) s = .next { s with pc := s.pc + 1, steps := s.steps + 1 } ∧
    exec (.bdv 0#3) s = .next { s with b := s.a, pc := s.pc + 1, steps := s.steps + 1 } ∧
    exec (.cdv 0#3) s = .next { s with c := s.a, pc := s.pc + 1, steps := s.steps + 1 } ∧
    (∀ w, s.a < 2 ^ w → w ≤ s.b →
      exec (.adv 5#3) s = .next { s with a := 0, pc := s.pc + 1, steps := s.steps + 1 })

/-- A changes only through `adv`, which never increases it and, with a non-zero shift amount, strictly decreases a
non-zero A: what makes loops end. -/
def Obligations.OnlyAdvLowersA : Prop :=
  (∀ (i : Instr) (s t : State), exec i s = .next t → t.a ≠ s.a → ∃ o, i = .adv o) ∧
  (∀ (o : Element) (s t : State), exec (.adv o) s = .next t → t.a ≤ s.a) ∧
  (∀ (o : Element) (k : Nat) (s : State), ComboValue s o k → k ≠ 0 → s.a ≠ 0 →
    ∃ t, exec (.adv o) s = .next t ∧ t.a < s.a)

/-- R115: the division laws. -/
def Obligations.DivisionLaws : Prop :=
  (∀ a, lsr a 0 = a) ∧
  (∀ a j k, lsr (lsr a j) k = lsr a (j + k)) ∧
  (∀ a k, lsr a k ≤ a) ∧
  (∀ a k, lsr a k = 0 ↔ a < 2 ^ k) ∧
  (∀ a k j, j < 3 → (lsr a k % 8).testBit j = a.testBit (k + j)) ∧
  (∀ a, a = lsr a 3 * 8 + a % 8)

/-- The operations of a `W`-bit datapath give the model's results on values of `W` bits: the logical right shift, whose
amount is not reduced modulo `W`, the exclusive-or, and the low three bits. -/
def Obligations.FiniteWidthUnitsAgree : Prop :=
  ∀ (W : Nat), 3 ≤ W → ∀ v w : BitVec W,
    (v >>> w).toNat = lsr v.toNat w.toNat ∧
    (v ^^^ w).toNat = bitXor v.toNat w.toNat ∧
    v.extractLsb' 0 3 = low3 v.toNat ∧
    (W ≤ w.toNat → lsr v.toNat w.toNat = 0)

/-! ### The bitwise family -/

/-- R120: `bxl` writes `B xor o` to B, for every literal, and cannot fault. -/
def Obligations.BxlXorsALiteral : Prop :=
  ∀ (s : State) (o : Element),
    decode 1#3 o = .bxl o ∧
    exec (.bxl o) s = .next { s with b := s.b ^^^ o.toNat, pc := s.pc + 1, steps := s.steps + 1 } ∧
    (s.b ^^^ o.toNat) / 8 = s.b / 8

/-- R121: `bst` writes the combo value modulo 8 to B; with the reserved operand it takes the fault before any write. -/
def Obligations.BstStoresModEight : Prop :=
  ∀ (s : State) (o : Element),
    decode 2#3 o = .bst o ∧
    (∀ v, ComboValue s o v →
      exec (.bst o) s = .next { s with b := v % 8, pc := s.pc + 1, steps := s.steps + 1 }) ∧
    (o = 7#3 → exec (.bst o) s = .next (operandFault s .combo7 2#3 7#3))

/-- R122: `bxc` writes `B xor C` to B, whatever its operand, 7 included, and cannot fault. -/
def Obligations.BxcXorsCAndIgnoresItsOperand : Prop :=
  ∀ (s : State) (o : Element),
    decode 4#3 o = .bxc o ∧
    exec (.bxc o) s = .next { s with b := s.b ^^^ s.c, pc := s.pc + 1, steps := s.steps + 1 }

/-- R123: the laws of the bitwise family: those of the two operations, and that the family writes neither A nor C, moves
`pc` by one only, and produces nothing wider than its inputs or three bits. -/
def Obligations.BitwiseFamilyLaws : Prop :=
  (∀ u v w, bitXor u v = bitXor v u ∧ bitXor (bitXor u v) w = bitXor u (bitXor v w) ∧
    bitXor v 0 = v ∧ bitXor v v = 0) ∧
  (∀ (b : Nat) (o : Element), bitXor b o.toNat % 8 = bitXor (b % 8) o.toNat ∧
    bitXor b o.toNat / 8 = b / 8) ∧
  (∀ b c, bitXor b c % 8 = bitXor (b % 8) (c % 8)) ∧
  (∀ v, zext (low3 v) = v % 8) ∧
  (∀ (i : Instr) (o : Element) (s t : State) (m : Nat), (i = .bxl o ∨ i = .bst o ∨ i = .bxc o) →
    exec i s = .next t →
      t.a = s.a ∧ t.c = s.c ∧ (t.pc = s.pc + 1 ∨ t.pc = s.pc ∧ t.status = .fault) ∧
      (3 ≤ m → s.b < 2 ^ m → s.c < 2 ^ m → t.b < 2 ^ m))

/-- `bxl` twice, and `bxc` twice with C unchanged, restore B. -/
def Obligations.XorInstructionsUndoThemselves : Prop :=
  (∀ (o : Element) (s : State), ∃ t u, exec (.bxl o) s = .next t ∧ exec (.bxl o) t = .next u ∧
    u = { s with pc := s.pc + 2, steps := s.steps + 2 }) ∧
  (∀ (o o' : Element) (s : State), ∃ t u, exec (.bxc o) s = .next t ∧ exec (.bxc o') t = .next u ∧
    u = { s with pc := s.pc + 2, steps := s.steps + 2 })

/-! ### Control transfer -/

/-- R130, R131: `jnz` with A = 0 goes on without examining its operand; with A not 0 and an even target below `L` it sets
`pc` to half the raw offset; it writes no register and no output. -/
def Obligations.JnzJumpsWhenAIsNotZero : Prop :=
  ∀ (s : State) (o : Element),
    decode 3#3 o = .jnz o ∧
    (s.a = 0 → exec (.jnz o) s = .next { s with pc := s.pc + 1, steps := s.steps + 1 }) ∧
    (s.a ≠ 0 → o.toNat % 2 = 0 → o.toNat < s.pmem.length →
      exec (.jnz o) s = .next { s with pc := o.toNat / 2, steps := s.steps + 1 } ∧
      2 * (o.toNat / 2) = o.toNat ∧ o.toNat / 2 ≤ 3) ∧
    (s.a ≠ 0 → o.toNat % 2 = 1 → exec (.jnz o) s = .next (operandFault s .jumpOdd 3#3 o)) ∧
    (s.a ≠ 0 → o.toNat % 2 = 0 → s.pmem.length ≤ o.toNat →
      exec (.jnz o) s = .next (operandFault s .jumpOutOfBounds 3#3 o))

/-- R153: `JumpOutOfBounds` is raised exactly by a taken `jnz` with an even operand not below `L`; in a program of even
length, not empty, that needs `L` = 2, 4 or 6 and one of the listed targets. -/
def Obligations.JumpOutOfBoundsExactly : Prop :=
  ∀ (i : Instr) (s : State),
    ((∃ t, exec i s = .next t ∧ t = operandFault s .jumpOutOfBounds (encode i).1 (encode i).2) ↔
      ∃ o, i = .jnz o ∧ s.a ≠ 0 ∧ o.toNat % 2 = 0 ∧ s.pmem.length ≤ o.toNat) ∧
    (s.pmem.length % 2 = 0 → 0 < s.pmem.length → ∀ o : Element, o.toNat % 2 = 0 → s.pmem.length ≤ o.toNat →
      (s.pmem.length = 2 ∧ (o = 2#3 ∨ o = 4#3 ∨ o = 6#3)) ∨
      (s.pmem.length = 4 ∧ (o = 4#3 ∨ o = 6#3)) ∨
      (s.pmem.length = 6 ∧ o = 6#3))

/-- R154: `JumpOdd` is raised exactly by a taken `jnz` whose operand is 1, 3, 5 or 7. -/
def Obligations.JumpOddExactly : Prop :=
  ∀ (i : Instr) (s : State),
    (∃ t, exec i s = .next t ∧ t = operandFault s .jumpOdd (encode i).1 (encode i).2) ↔
      s.a ≠ 0 ∧ (i = .jnz 1#3 ∨ i = .jnz 3#3 ∨ i = .jnz 5#3 ∨ i = .jnz 7#3)

/-- R152: `Combo7` is raised exactly by the five reserved words. -/
def Obligations.ReservedWordsRaiseCombo7 : Prop :=
  ∀ (w : InstrWord) (s : State),
    (∃ t, exec (decodeWord w) s = .next t ∧ t = operandFault s .combo7 (opcodeField w) (operandField w)) ↔
      (w = 0o07#6 ∨ w = 0o27#6 ∨ w = 0o57#6 ∨ w = 0o67#6 ∨ w = 0o77#6)

/-! ### Output -/

/-- R140: `out` appends the combo value modulo 8 to the output stream, writes no register and lets the run go on; with the
reserved operand it takes the fault before anything is emitted. -/
def Obligations.OutEmitsModEight : Prop :=
  ∀ (s : State) (o : Element),
    decode 5#3 o = .out o ∧
    (∀ v, ComboValue s o v → ∃ e : Element, e.toNat = v % 8 ∧
      exec (.out o) s = .next { s with out := s.out ++ [e], pc := s.pc + 1, steps := s.steps + 1 }) ∧
    (o = 7#3 → exec (.out o) s = .next (operandFault s .combo7 5#3 7#3))

/-! ### Frames and whole-machine rules -/

/-- The frame of the divide family: only the destination register, `pc` and `steps` change, or a fault is entered. -/
def Obligations.FrameOfDivideFamily : Prop :=
  ∀ (o : Element) (s t : State),
    (exec (.adv o) s = .next t → t.b = s.b ∧ t.c = s.c ∧ t.out = s.out ∧ ControlFrame s t) ∧
    (exec (.bdv o) s = .next t → t.a = s.a ∧ t.c = s.c ∧ t.out = s.out ∧ ControlFrame s t) ∧
    (exec (.cdv o) s = .next t → t.a = s.a ∧ t.b = s.b ∧ t.out = s.out ∧ ControlFrame s t)

/-- The frame of the bitwise family: only B, `pc` and `steps` change, or, for `bst` alone, a fault is entered. -/
def Obligations.FrameOfBitwiseFamily : Prop :=
  ∀ (i : Instr) (o : Element) (s t : State), (i = .bxl o ∨ i = .bst o ∨ i = .bxc o) → exec i s = .next t →
    t.a = s.a ∧ t.c = s.c ∧ t.out = s.out ∧ ControlFrame s t ∧
    (i ≠ .bst o → t.status = s.status ∧ t.cause = s.cause ∧ t.info = s.info)

/-- The frame of `jnz` and `out`: no register changes; `jnz` leaves the output as it is, and `out` leaves all that was
emitted before. -/
def Obligations.FrameOfJnzAndOut : Prop :=
  ∀ (o : Element) (s t : State),
    (exec (.jnz o) s = .next t → t.a = s.a ∧ t.b = s.b ∧ t.c = s.c ∧ t.out = s.out ∧ ControlFrame s t) ∧
    (exec (.out o) s = .next t → t.a = s.a ∧ t.b = s.b ∧ t.c = s.c ∧
      t.out.take s.out.length = s.out ∧ t.out.length ≤ s.out.length + 1 ∧ ControlFrame s t)

/-- R22: an instruction writes only the register the table gives it, and what it does depends only on the registers the
table says it reads (and, for a jump, on `L`): in two states that agree on those, it completes or faults alike, writes the
same value, emits the same element, and jumps alike; `pc`, `out`, `steps` and `status` may differ. -/
def Obligations.InstructionsReadAndWriteTheirRegisters : Prop :=
  (∀ (i : Instr) (s t : State), exec i s = .next t → ∀ r, writes i ≠ some r → regOf t r = regOf s r) ∧
  (∀ (i : Instr) (s s' t t' : State), s'.pmem.length = s.pmem.length →
    (∀ r ∈ reads i, regOf s' r = regOf s r) → exec i s = .next t → exec i s' = .next t' →
      (t.steps = s.steps + 1 ↔ t'.steps = s'.steps + 1) ∧
      (t.steps = s.steps + 1 → ∀ r, writes i = some r → regOf t' r = regOf t r) ∧
      (∃ emitted : List Element, t.out = s.out ++ emitted ∧ t'.out = s'.out ++ emitted) ∧
      ((t.pc = s.pc ∧ t'.pc = s'.pc) ∨ (t.pc = s.pc + 1 ∧ t'.pc = s'.pc + 1) ∨ t.pc = t'.pc))
end

