-- ==== Sys2Proof/Laws/Decode.lean ====
section
/-! SUPPORT. The fields of a packed word, and induction over a flat program two elements at a time. -/

namespace Sys2Proof

@[simp] theorem opcodeField_packWord (x y : Element) : opcodeField (packWord x y) = x := by
  revert x y; decide

@[simp] theorem operandField_packWord (x y : Element) : operandField (packWord x y) = y := by
  revert x y; decide

@[simp] theorem packWord_fields (w : InstrWord) : packWord (opcodeField w) (operandField w) = w := by
  revert w; decide

/-- Induction over a flat program by whole instructions, with a last element that has no partner as a base case. -/
theorem flat_induction {P : List Element → Prop} (nil : P []) (single : ∀ x, P [x])
    (pair : ∀ x y rest, P rest → P (x :: y :: rest)) : ∀ p, P p
  | [] => nil
  | [x] => single x
  | x :: y :: rest => pair x y rest (flat_induction nil single pair rest)

/-- Every element is one of the eight. -/
theorem element_cases (o : Element) :
    o = 0#3 ∨ o = 1#3 ∨ o = 2#3 ∨ o = 3#3 ∨ o = 4#3 ∨ o = 5#3 ∨ o = 6#3 ∨ o = 7#3 := by
  revert o; decide

end Sys2Proof
end

