-- ==== Sys2Proof/Laws/State.lean ====
section
/-! SUPPORT. What each update of the state does to each field, one lemma a field, tagged for `simp`. -/

namespace Sys2Proof.Machine

/-! ### writeReg -/

@[simp] theorem writeReg_pc (s : State) (r : Reg) (v : Nat) : (writeReg s r v).pc = s.pc := by
  cases r <;> rfl

@[simp] theorem writeReg_out (s : State) (r : Reg) (v : Nat) : (writeReg s r v).out = s.out := by
  cases r <;> rfl

@[simp] theorem writeReg_status (s : State) (r : Reg) (v : Nat) : (writeReg s r v).status = s.status := by
  cases r <;> rfl

@[simp] theorem writeReg_steps (s : State) (r : Reg) (v : Nat) : (writeReg s r v).steps = s.steps := by
  cases r <;> rfl

@[simp] theorem writeReg_cause (s : State) (r : Reg) (v : Nat) : (writeReg s r v).cause = s.cause := by
  cases r <;> rfl

@[simp] theorem writeReg_info (s : State) (r : Reg) (v : Nat) : (writeReg s r v).info = s.info := by
  cases r <;> rfl

@[simp] theorem writeReg_pmem (s : State) (r : Reg) (v : Nat) : (writeReg s r v).pmem = s.pmem := by
  cases r <;> rfl

@[simp] theorem writeReg_maxSteps (s : State) (r : Reg) (v : Nat) : (writeReg s r v).maxSteps = s.maxSteps := by
  cases r <;> rfl

@[simp] theorem readReg_A (s : State) : readReg s .A = s.a := rfl

@[simp] theorem writeReg_A_a (s : State) (v : Nat) : (writeReg s .A v).a = v := rfl

@[simp] theorem writeReg_A_b (s : State) (v : Nat) : (writeReg s .A v).b = s.b := rfl

@[simp] theorem writeReg_A_c (s : State) (v : Nat) : (writeReg s .A v).c = s.c := rfl

@[simp] theorem readReg_B (s : State) : readReg s .B = s.b := rfl

@[simp] theorem writeReg_B_a (s : State) (v : Nat) : (writeReg s .B v).a = s.a := rfl

@[simp] theorem writeReg_B_b (s : State) (v : Nat) : (writeReg s .B v).b = v := rfl

@[simp] theorem writeReg_B_c (s : State) (v : Nat) : (writeReg s .B v).c = s.c := rfl

@[simp] theorem readReg_C (s : State) : readReg s .C = s.c := rfl

@[simp] theorem writeReg_C_a (s : State) (v : Nat) : (writeReg s .C v).a = s.a := rfl

@[simp] theorem writeReg_C_b (s : State) (v : Nat) : (writeReg s .C v).b = s.b := rfl

@[simp] theorem writeReg_C_c (s : State) (v : Nat) : (writeReg s .C v).c = v := rfl

@[simp] theorem readReg_writeReg_self (s : State) (r : Reg) (v : Nat) : readReg (writeReg s r v) r = v := by
  cases r <;> rfl

theorem readReg_writeReg_of_ne (s : State) {r q : Reg} (v : Nat) (h : q ≠ r) :
    readReg (writeReg s r v) q = readReg s q := by
  cases r <;> cases q <;> first | rfl | exact absurd rfl h

/-! ### emit -/

@[simp] theorem emit_a (s : State) (e : Element) :
    (emit s e).a = s.a := rfl

@[simp] theorem emit_b (s : State) (e : Element) :
    (emit s e).b = s.b := rfl

@[simp] theorem emit_c (s : State) (e : Element) :
    (emit s e).c = s.c := rfl

@[simp] theorem emit_pc (s : State) (e : Element) :
    (emit s e).pc = s.pc := rfl

@[simp] theorem emit_out (s : State) (e : Element) :
    (emit s e).out = s.out ++ [e] := rfl

@[simp] theorem emit_status (s : State) (e : Element) :
    (emit s e).status = s.status := rfl

@[simp] theorem emit_steps (s : State) (e : Element) :
    (emit s e).steps = s.steps := rfl

@[simp] theorem emit_cause (s : State) (e : Element) :
    (emit s e).cause = s.cause := rfl

@[simp] theorem emit_info (s : State) (e : Element) :
    (emit s e).info = s.info := rfl

@[simp] theorem emit_pmem (s : State) (e : Element) :
    (emit s e).pmem = s.pmem := rfl

@[simp] theorem emit_maxSteps (s : State) (e : Element) :
    (emit s e).maxSteps = s.maxSteps := rfl

/-! ### completeAt -/

@[simp] theorem completeAt_a (s : State) (t : Nat) :
    (completeAt s t).a = s.a := rfl

@[simp] theorem completeAt_b (s : State) (t : Nat) :
    (completeAt s t).b = s.b := rfl

@[simp] theorem completeAt_c (s : State) (t : Nat) :
    (completeAt s t).c = s.c := rfl

@[simp] theorem completeAt_pc (s : State) (t : Nat) :
    (completeAt s t).pc = t := rfl

@[simp] theorem completeAt_out (s : State) (t : Nat) :
    (completeAt s t).out = s.out := rfl

@[simp] theorem completeAt_status (s : State) (t : Nat) :
    (completeAt s t).status = s.status := rfl

@[simp] theorem completeAt_steps (s : State) (t : Nat) :
    (completeAt s t).steps = s.steps + 1 := rfl

@[simp] theorem completeAt_cause (s : State) (t : Nat) :
    (completeAt s t).cause = s.cause := rfl

@[simp] theorem completeAt_info (s : State) (t : Nat) :
    (completeAt s t).info = s.info := rfl

@[simp] theorem completeAt_pmem (s : State) (t : Nat) :
    (completeAt s t).pmem = s.pmem := rfl

@[simp] theorem completeAt_maxSteps (s : State) (t : Nat) :
    (completeAt s t).maxSteps = s.maxSteps := rfl

/-! ### completeNext -/

@[simp] theorem completeNext_a (s : State) :
    (completeNext s).a = s.a := rfl

@[simp] theorem completeNext_b (s : State) :
    (completeNext s).b = s.b := rfl

@[simp] theorem completeNext_c (s : State) :
    (completeNext s).c = s.c := rfl

@[simp] theorem completeNext_pc (s : State) :
    (completeNext s).pc = s.pc + 1 := rfl

@[simp] theorem completeNext_out (s : State) :
    (completeNext s).out = s.out := rfl

@[simp] theorem completeNext_status (s : State) :
    (completeNext s).status = s.status := rfl

@[simp] theorem completeNext_steps (s : State) :
    (completeNext s).steps = s.steps + 1 := rfl

@[simp] theorem completeNext_cause (s : State) :
    (completeNext s).cause = s.cause := rfl

@[simp] theorem completeNext_info (s : State) :
    (completeNext s).info = s.info := rfl

@[simp] theorem completeNext_pmem (s : State) :
    (completeNext s).pmem = s.pmem := rfl

@[simp] theorem completeNext_maxSteps (s : State) :
    (completeNext s).maxSteps = s.maxSteps := rfl

/-! ### halt -/

@[simp] theorem halt_a (s : State) :
    (halt s).a = s.a := rfl

@[simp] theorem halt_b (s : State) :
    (halt s).b = s.b := rfl

@[simp] theorem halt_c (s : State) :
    (halt s).c = s.c := rfl

@[simp] theorem halt_pc (s : State) :
    (halt s).pc = s.pc := rfl

@[simp] theorem halt_out (s : State) :
    (halt s).out = s.out := rfl

@[simp] theorem halt_status (s : State) :
    (halt s).status = .halted := rfl

@[simp] theorem halt_steps (s : State) :
    (halt s).steps = s.steps := rfl

@[simp] theorem halt_cause (s : State) :
    (halt s).cause = s.cause := rfl

@[simp] theorem halt_info (s : State) :
    (halt s).info = s.info := rfl

@[simp] theorem halt_pmem (s : State) :
    (halt s).pmem = s.pmem := rfl

@[simp] theorem halt_maxSteps (s : State) :
    (halt s).maxSteps = s.maxSteps := rfl

/-! ### takeFault -/

@[simp] theorem takeFault_a (s : State) (f : Fault) (r : Reason) (x y : Option Element) :
    (takeFault s f r x y).a = s.a := rfl

@[simp] theorem takeFault_b (s : State) (f : Fault) (r : Reason) (x y : Option Element) :
    (takeFault s f r x y).b = s.b := rfl

@[simp] theorem takeFault_c (s : State) (f : Fault) (r : Reason) (x y : Option Element) :
    (takeFault s f r x y).c = s.c := rfl

@[simp] theorem takeFault_pc (s : State) (f : Fault) (r : Reason) (x y : Option Element) :
    (takeFault s f r x y).pc = s.pc := rfl

@[simp] theorem takeFault_out (s : State) (f : Fault) (r : Reason) (x y : Option Element) :
    (takeFault s f r x y).out = s.out := rfl

@[simp] theorem takeFault_status (s : State) (f : Fault) (r : Reason) (x y : Option Element) :
    (takeFault s f r x y).status = .fault := rfl

@[simp] theorem takeFault_steps (s : State) (f : Fault) (r : Reason) (x y : Option Element) :
    (takeFault s f r x y).steps = s.steps := rfl

@[simp] theorem takeFault_cause (s : State) (f : Fault) (r : Reason) (x y : Option Element) :
    (takeFault s f r x y).cause = some f := rfl

@[simp] theorem takeFault_info (s : State) (f : Fault) (r : Reason) (x y : Option Element) :
    (takeFault s f r x y).info = some { reason := r, pc := s.pc, opcode := x, operand := y } := rfl

@[simp] theorem takeFault_pmem (s : State) (f : Fault) (r : Reason) (x y : Option Element) :
    (takeFault s f r x y).pmem = s.pmem := rfl

@[simp] theorem takeFault_maxSteps (s : State) (f : Fault) (r : Reason) (x y : Option Element) :
    (takeFault s f r x y).maxSteps = s.maxSteps := rfl

/-! ### raiseInvalidOperand -/

@[simp] theorem raiseInvalidOperand_a (s : State) (i : Instr) (r : Reason) :
    (raiseInvalidOperand s i r).a = s.a := rfl

@[simp] theorem raiseInvalidOperand_b (s : State) (i : Instr) (r : Reason) :
    (raiseInvalidOperand s i r).b = s.b := rfl

@[simp] theorem raiseInvalidOperand_c (s : State) (i : Instr) (r : Reason) :
    (raiseInvalidOperand s i r).c = s.c := rfl

@[simp] theorem raiseInvalidOperand_pc (s : State) (i : Instr) (r : Reason) :
    (raiseInvalidOperand s i r).pc = s.pc := rfl

@[simp] theorem raiseInvalidOperand_out (s : State) (i : Instr) (r : Reason) :
    (raiseInvalidOperand s i r).out = s.out := rfl

@[simp] theorem raiseInvalidOperand_status (s : State) (i : Instr) (r : Reason) :
    (raiseInvalidOperand s i r).status = .fault := rfl

@[simp] theorem raiseInvalidOperand_steps (s : State) (i : Instr) (r : Reason) :
    (raiseInvalidOperand s i r).steps = s.steps := rfl

@[simp] theorem raiseInvalidOperand_cause (s : State) (i : Instr) (r : Reason) :
    (raiseInvalidOperand s i r).cause = some .invalidOperand := rfl

@[simp] theorem raiseInvalidOperand_info (s : State) (i : Instr) (r : Reason) :
    (raiseInvalidOperand s i r).info = some { reason := r, pc := s.pc, opcode := some (opcodeOf i), operand := some i.operand } := rfl

@[simp] theorem raiseInvalidOperand_pmem (s : State) (i : Instr) (r : Reason) :
    (raiseInvalidOperand s i r).pmem = s.pmem := rfl

@[simp] theorem raiseInvalidOperand_maxSteps (s : State) (i : Instr) (r : Reason) :
    (raiseInvalidOperand s i r).maxSteps = s.maxSteps := rfl

/-! ### raiseStepBudgetExceeded -/

@[simp] theorem raiseStepBudgetExceeded_a (s : State) :
    (raiseStepBudgetExceeded s).a = s.a := rfl

@[simp] theorem raiseStepBudgetExceeded_b (s : State) :
    (raiseStepBudgetExceeded s).b = s.b := rfl

@[simp] theorem raiseStepBudgetExceeded_c (s : State) :
    (raiseStepBudgetExceeded s).c = s.c := rfl

@[simp] theorem raiseStepBudgetExceeded_pc (s : State) :
    (raiseStepBudgetExceeded s).pc = s.pc := rfl

@[simp] theorem raiseStepBudgetExceeded_out (s : State) :
    (raiseStepBudgetExceeded s).out = s.out := rfl

@[simp] theorem raiseStepBudgetExceeded_status (s : State) :
    (raiseStepBudgetExceeded s).status = .fault := rfl

@[simp] theorem raiseStepBudgetExceeded_steps (s : State) :
    (raiseStepBudgetExceeded s).steps = s.steps := rfl

@[simp] theorem raiseStepBudgetExceeded_cause (s : State) :
    (raiseStepBudgetExceeded s).cause = some .stepBudgetExceeded := rfl

@[simp] theorem raiseStepBudgetExceeded_info (s : State) :
    (raiseStepBudgetExceeded s).info = some { reason := .budget, pc := s.pc, opcode := none, operand := none } := rfl

@[simp] theorem raiseStepBudgetExceeded_pmem (s : State) :
    (raiseStepBudgetExceeded s).pmem = s.pmem := rfl

@[simp] theorem raiseStepBudgetExceeded_maxSteps (s : State) :
    (raiseStepBudgetExceeded s).maxSteps = s.maxSteps := rfl

/-! ### State.launched -/

@[simp] theorem launched_a (p : List Element) (a b c : Nat) (m : Nat) :
    (State.launched p a b c m).a = a := rfl

@[simp] theorem launched_b (p : List Element) (a b c : Nat) (m : Nat) :
    (State.launched p a b c m).b = b := rfl

@[simp] theorem launched_c (p : List Element) (a b c : Nat) (m : Nat) :
    (State.launched p a b c m).c = c := rfl

@[simp] theorem launched_pc (p : List Element) (a b c : Nat) (m : Nat) :
    (State.launched p a b c m).pc = 0 := rfl

@[simp] theorem launched_out (p : List Element) (a b c : Nat) (m : Nat) :
    (State.launched p a b c m).out = [] := rfl

@[simp] theorem launched_status (p : List Element) (a b c : Nat) (m : Nat) :
    (State.launched p a b c m).status = .running := rfl

@[simp] theorem launched_steps (p : List Element) (a b c : Nat) (m : Nat) :
    (State.launched p a b c m).steps = 0 := rfl

@[simp] theorem launched_cause (p : List Element) (a b c : Nat) (m : Nat) :
    (State.launched p a b c m).cause = none := rfl

@[simp] theorem launched_info (p : List Element) (a b c : Nat) (m : Nat) :
    (State.launched p a b c m).info = none := rfl

@[simp] theorem launched_pmem (p : List Element) (a b c : Nat) (m : Nat) :
    (State.launched p a b c m).pmem = p := rfl

@[simp] theorem launched_maxSteps (p : List Element) (a b c : Nat) (m : Nat) :
    (State.launched p a b c m).maxSteps = m := rfl

end Sys2Proof.Machine
end

