-- ==== Sys2Proof/Laws/Ops.lean ====
section
/-! SUPPORT. One lemma per shared operation that says what it can do: the arithmetic units, the operands, taking a jump,
the program store, a pass of the run loop. Provers cite these instead of unfolding the operations. -/

namespace Sys2Proof.Machine

/-! ### Arithmetic units -/

theorem bitLength_le_iff (a k : Nat) : bitLength a ≤ k ↔ a < 2 ^ k := by
  unfold bitLength
  split
  · next h => subst h; simp
  · next h => rw [Nat.succ_le_iff, Nat.log2_lt h]

/-- The bit-length test of `lsr` only avoids building `2^k`: the result is the exact quotient (41_divide_shift.md R110). -/
theorem lsr_eq_div (a k : Nat) : lsr a k = a / 2 ^ k := by
  unfold lsr
  split
  · next h => exact (Nat.div_eq_of_lt ((bitLength_le_iff a k).1 h)).symm
  · exact Nat.shiftRight_eq_div_pow a k

theorem lsr_le (a k : Nat) : lsr a k ≤ a := by
  rw [lsr_eq_div]; exact Nat.div_le_self a _

theorem zext_lt (e : Element) : zext e < 8 := e.isLt

@[simp] theorem zext_low3 (v : Nat) : zext (low3 v) = v % 8 := by
  simp [zext, low3]

theorem bitXor_lt {v w m : Nat} (hv : v < 2 ^ m) (hw : w < 2 ^ m) : bitXor v w < 2 ^ m :=
  Nat.xor_lt_two_pow hv hw

/-! ### Operands -/

/-- What a combo operand resolves to, by its element (40_execution_cycle.md R95). -/
theorem combo_eq_some_iff (s : State) (o : Element) (v : Nat) :
    combo s o = some v ↔
      (o.toNat ≤ 3 ∧ v = o.toNat) ∨ (o = 4#3 ∧ v = s.a) ∨ (o = 5#3 ∧ v = s.b) ∨ (o = 6#3 ∧ v = s.c) := by
  rcases element_cases o with rfl | rfl | rfl | rfl | rfl | rfl | rfl | rfl <;> simp [combo, zext, eq_comm]

theorem combo_eq_none_iff (s : State) (o : Element) : combo s o = none ↔ o = 7#3 := by
  rcases element_cases o with rfl | rfl | rfl | rfl | rfl | rfl | rfl | rfl <;> simp [combo]

/-- Everything an instruction with a combo operand can do. -/
theorem withCombo_next {i : Instr} {s t : State} {k : Nat → State} (h : withCombo i s k = .next t) :
    (∃ v, combo s i.operand = some v ∧ t = k v) ∨
      (i.operand = 7#3 ∧ t = raiseInvalidOperand s i .combo7) := by
  unfold withCombo at h
  split at h
  · next v hv => exact .inl ⟨v, hv, by cases h; rfl⟩
  · next hn => exact .inr ⟨(combo_eq_none_iff s _).1 hn, by cases h; rfl⟩

theorem withCombo_of_some {i : Instr} {s : State} {k : Nat → State} {v : Nat}
    (h : combo s i.operand = some v) : withCombo i s k = .next (k v) := by
  simp [withCombo, h]

theorem withCombo_of_reserved {i : Instr} {s : State} {k : Nat → State} (h : i.operand = 7#3) :
    withCombo i s k = .next (raiseInvalidOperand s i .combo7) := by
  simp [withCombo, (combo_eq_none_iff s _).2 h]

/-! ### The jump -/

@[simp] theorem jumpTaken_iff (s : State) : jumpTaken s = true ↔ s.a ≠ 0 := by
  simp [jumpTaken]

theorem jumpFault_eq_none_iff (s : State) (t : Nat) :
    jumpFault s t = none ↔ t % 2 = 0 ∧ t < s.pmem.length := by
  unfold jumpFault progLen
  split
  · simp; omega
  · split <;> simp <;> omega

/-- Everything `jnz` can do. -/
theorem execJnz_next {o : Element} {s t : State} (h : execJnz o s = .next t) :
    (s.a = 0 ∧ t = completeNext s) ∨
      (s.a ≠ 0 ∧ o.toNat % 2 = 0 ∧ o.toNat < s.pmem.length ∧ t = completeAt s (o.toNat / 2)) ∨
      (s.a ≠ 0 ∧ o.toNat % 2 = 1 ∧ t = raiseInvalidOperand s (.jnz o) .jumpOdd) ∨
      (s.a ≠ 0 ∧ o.toNat % 2 = 0 ∧ s.pmem.length ≤ o.toNat ∧
        t = raiseInvalidOperand s (.jnz o) .jumpOutOfBounds) := by
  unfold execJnz jumpFault literal progLen at h
  by_cases ha : s.a = 0
  · simp [jumpTaken, ha] at h
    exact .inl ⟨ha, h.symm⟩
  · by_cases hodd : o.toNat % 2 = 1
    · simp [jumpTaken, ha, hodd] at h
      exact .inr (.inr (.inl ⟨ha, hodd, h.symm⟩))
    · have heven : o.toNat % 2 = 0 := by omega
      by_cases hb : s.pmem.length ≤ o.toNat
      · simp [jumpTaken, ha, heven, hb] at h
        exact .inr (.inr (.inr ⟨ha, heven, hb, h.symm⟩))
      · simp [jumpTaken, ha, heven, hb] at h
        exact .inr (.inl ⟨ha, heven, by omega, h.symm⟩)

/-! ### The program store -/

theorem readPmem_of_lt {s : State} {e : Nat} (h : e < s.pmem.length) : readPmem s e = some s.pmem[e] := by
  simp [readPmem, h]

/-- What `fetch` returns is what the program store holds at `2 * pc` and `2 * pc + 1`. -/
theorem fetch_eq_of_readPmem {s : State} (h : s.pc < instrCount s) {opcode operand : Element}
    (h0 : readPmem s (2 * s.pc) = some opcode) (h1 : readPmem s (2 * s.pc + 1) = some operand) :
    fetch s h = (opcode, operand) := by
  simp only [readPmem, List.getElem?_eq_some_iff] at h0 h1
  obtain ⟨_, h0⟩ := h0
  obtain ⟨_, h1⟩ := h1
  simp [fetch, h0, h1]

theorem readPmem_fetch {s : State} (h : s.pc < instrCount s) :
    readPmem s (2 * s.pc) = some (fetch s h).1 ∧ readPmem s (2 * s.pc + 1) = some (fetch s h).2 := by
  have := fetch_in_range h
  exact ⟨readPmem_of_lt (by omega), readPmem_of_lt this⟩

theorem placePair_length (m : List Element) (i : Nat) (x y : Element) :
    (placePair m i x y).length = max m.length (2 * i + 2) := by
  simp [placePair]; omega

/-- Placing an instruction keeps the canonical form of the program store. -/
theorem placePair_wf {m : List Element} (h : Memory.wf m = true) (i : Nat) (x y : Element) :
    Memory.wf (placePair m i x y) = true := by
  simp only [Memory.wf, placePair_length, beq_iff_eq] at *
  omega

theorem placePair_opcode (m : List Element) (i : Nat) (x y : Element) :
    (placePair m i x y)[2 * i]? = some x := by
  have hlen : 2 * i < m.length + (2 * i + 2 - m.length) := by omega
  simp [placePair, hlen]

theorem placePair_operand (m : List Element) (i : Nat) (x y : Element) :
    (placePair m i x y)[2 * i + 1]? = some y := by
  have hlen : 2 * i + 1 < m.length + (2 * i + 2 - m.length) := by omega
  simp [placePair, hlen]

/-- A valid flat program gives a program store in canonical form. -/
theorem toElements_wf {p : List Nat} (h : programValid p = true) : Memory.wf (toElements p) = true := by
  simp_all [programValid, lengthEven, Memory.wf, toElements]

theorem reset_wf : Memory.wf State.reset.pmem = true := rfl

/-! ### A pass of the run loop -/

theorem step_running {s : State} (h : s.status = .running) : step s = runPass s := by
  simp [step, passOf, h]

theorem step_halted {s : State} (h : s.status = .halted) : step s = .next s := by
  simp [step, passOf, h]

theorem step_faulted {s : State} (h : s.status = .fault) {f : Fault} (hf : s.cause = some f) :
    step s = .fault f := by
  simp [step, passOf, h, hf]

theorem runPass_at_end {s : State} (h : instrCount s ≤ s.pc) : runPass s = .next (halt s) := by
  simp [runPass, Nat.not_lt.2 h]

theorem runPass_budget {s : State} (h : s.pc < instrCount s) (hb : s.steps = s.maxSteps) :
    runPass s = .next (raiseStepBudgetExceeded s) := by
  simp [runPass, h, hb]

theorem runPass_exec {s : State} (h : s.pc < instrCount s) (hb : s.steps ≠ s.maxSteps) :
    runPass s = exec (decode (fetch s h).1 (fetch s h).2) s := by
  simp [runPass, h, hb]

/-- Everything a step that answers a next state can do. -/
theorem step_next {s t : State} (h : step s = .next t) :
    (s.status = .halted ∧ t = s) ∨
      (s.status = .running ∧ instrCount s ≤ s.pc ∧ t = halt s) ∨
      (s.status = .running ∧ s.pc < instrCount s ∧ s.steps = s.maxSteps ∧ t = raiseStepBudgetExceeded s) ∨
      (s.status = .running ∧ s.steps ≠ s.maxSteps ∧
        ∃ hpc : s.pc < instrCount s, exec (decode (fetch s hpc).1 (fetch s hpc).2) s = .next t) := by
  cases hs : s.status with
  | halted => rw [step_halted hs] at h; exact .inl ⟨rfl, by cases h; rfl⟩
  | fault =>
    simp only [step, passOf, hs] at h
    split at h <;> cases h
  | running =>
    rw [step_running hs] at h
    rcases Nat.lt_or_ge s.pc (instrCount s) with hpc | hpc
    · by_cases hb : s.steps = s.maxSteps
      · rw [runPass_budget hpc hb] at h
        exact .inr (.inr (.inl ⟨rfl, hpc, hb, by cases h; rfl⟩))
      · rw [runPass_exec hpc hb] at h
        exact .inr (.inr (.inr ⟨rfl, hb, hpc, h⟩))
    · rw [runPass_at_end hpc] at h
      exact .inr (.inl ⟨rfl, hpc, by cases h; rfl⟩)

/-! ### Launch and run loop -/

/-- Everything a launch that creates a run does. -/
theorem launch_next {cfg : Config} {args : LaunchArgs} {s : State} (h : launch cfg args = .next s) :
    registersPresentable cfg args = true ∧ programValid args.program = true ∧
      cfg.holdsProgram args.program.length = true ∧
      s = State.launched (toElements args.program) args.a args.b args.c args.maxSteps := by
  unfold launch at h
  split at h
  · split at h
    · split at h
      · exact ⟨‹_›, ‹_›, ‹_›, by cases h; rfl⟩
      · cases h
    · cases h
  · cases h

theorem runLoop_zero (s : State) : runLoop 0 s = s := rfl

theorem runLoop_of_not_running {s : State} (h : s.status ≠ .running) (fuel : Nat) : runLoop fuel s = s := by
  cases fuel <;> simp [runLoop, h]

theorem runLoop_step {s t : State} (h : s.status = .running) (ht : step s = .next t) (fuel : Nat) :
    runLoop (fuel + 1) s = runLoop fuel t := by
  simp [runLoop, h, ht]

/-- A property that every step keeps holds along the run loop: the induction, once. -/
theorem runLoop_keeps {P : State → Prop} (hP : ∀ s t, P s → step s = .next t → P t) (fuel : Nat) {s : State}
    (h : P s) : P (runLoop fuel s) := by
  induction fuel generalizing s with
  | zero => exact h
  | succ fuel ih =>
    unfold runLoop
    split
    · split
      · next t ht => exact ih (hP s t h ht)
      · exact h
      · exact h
    · exact h

end Sys2Proof.Machine
end

