-- ==== Sys2Proof/Laws/Exec.lean ====
section
/-! SUPPORT. What each instruction can do, one inversion lemma per meaning, and the frame they share. -/

namespace Sys2Proof.Machine

/-- The register an instruction writes, if any (10_state.md R22). -/
def destination : Instr → Option Reg
  | .adv _ => some .A
  | .bxl _ => some .B
  | .bst _ => some .B
  | .jnz _ => none
  | .bxc _ => some .B
  | .out _ => none
  | .bdv _ => some .B
  | .cdv _ => some .C

theorem divideInto_next {dest : Reg} {i : Instr} {s t : State} (h : divideInto dest i s = .next t) :
    (∃ k, combo s i.operand = some k ∧ t = completeNext (writeReg s dest (lsr s.a k))) ∨
      (i.operand = 7#3 ∧ t = raiseInvalidOperand s i .combo7) :=
  withCombo_next h

theorem execBst_next {o : Element} {s t : State} (h : execBst o s = .next t) :
    (∃ v, combo s o = some v ∧ t = completeNext (writeReg s .B (zext (low3 v)))) ∨
      (o = 7#3 ∧ t = raiseInvalidOperand s (.bst o) .combo7) :=
  withCombo_next h

theorem execOut_next {o : Element} {s t : State} (h : execOut o s = .next t) :
    (∃ v, combo s o = some v ∧ t = completeNext (emit s (low3 v))) ∨
      (o = 7#3 ∧ t = raiseInvalidOperand s (.out o) .combo7) :=
  withCombo_next h

theorem execBxl_eq (o : Element) (s : State) :
    execBxl o s = .next (completeNext (writeReg s .B (bitXor s.b o.toNat))) := rfl

theorem execBxc_eq (o : Element) (s : State) :
    execBxc o s = .next (completeNext (writeReg s .B (bitXor s.b s.c))) := rfl

/-- Everything an instruction can do: it completes, with a next index, at most one register and at most one output
element written, or it takes an `InvalidOperand` fault. -/
theorem exec_next {i : Instr} {s t : State} (h : exec i s = .next t) :
    (∃ r v, destination i = some r ∧ t = completeNext (writeReg s r v)) ∨
      (∃ o e, i = .out o ∧ t = completeNext (emit s e)) ∨
      (∃ o, i = .jnz o ∧ s.a = 0 ∧ t = completeNext s) ∨
      (∃ o, i = .jnz o ∧ s.a ≠ 0 ∧ o.toNat % 2 = 0 ∧ o.toNat < s.pmem.length ∧ t = completeAt s (o.toNat / 2)) ∨
      (∃ reason, reason ≠ .budget ∧ t = raiseInvalidOperand s i reason) := by
  cases i with
  | adv o =>
    rcases divideInto_next h with ⟨k, -, rfl⟩ | ⟨-, rfl⟩
    · exact .inl ⟨.A, _, rfl, rfl⟩
    · exact .inr (.inr (.inr (.inr ⟨.combo7, by decide, rfl⟩)))
  | bxl o => cases h; exact .inl ⟨.B, _, rfl, rfl⟩
  | bst o =>
    rcases execBst_next h with ⟨k, -, rfl⟩ | ⟨-, rfl⟩
    · exact .inl ⟨.B, _, rfl, rfl⟩
    · exact .inr (.inr (.inr (.inr ⟨.combo7, by decide, rfl⟩)))
  | jnz o =>
    rcases execJnz_next h with ⟨ha, rfl⟩ | ⟨ha, he, hl, rfl⟩ | ⟨-, -, rfl⟩ | ⟨-, -, -, rfl⟩
    · exact .inr (.inr (.inl ⟨o, rfl, ha, rfl⟩))
    · exact .inr (.inr (.inr (.inl ⟨o, rfl, ha, he, hl, rfl⟩)))
    · exact .inr (.inr (.inr (.inr ⟨.jumpOdd, by decide, rfl⟩)))
    · exact .inr (.inr (.inr (.inr ⟨.jumpOutOfBounds, by decide, rfl⟩)))
  | bxc o => cases h; exact .inl ⟨.B, _, rfl, rfl⟩
  | out o =>
    rcases execOut_next h with ⟨k, -, rfl⟩ | ⟨-, rfl⟩
    · exact .inr (.inl ⟨o, _, rfl, rfl⟩)
    · exact .inr (.inr (.inr (.inr ⟨.combo7, by decide, rfl⟩)))
  | bdv o =>
    rcases divideInto_next h with ⟨k, -, rfl⟩ | ⟨-, rfl⟩
    · exact .inl ⟨.B, _, rfl, rfl⟩
    · exact .inr (.inr (.inr (.inr ⟨.combo7, by decide, rfl⟩)))
  | cdv o =>
    rcases divideInto_next h with ⟨k, -, rfl⟩ | ⟨-, rfl⟩
    · exact .inl ⟨.C, _, rfl, rfl⟩
    · exact .inr (.inr (.inr (.inr ⟨.combo7, by decide, rfl⟩)))

theorem exec_pmem {i : Instr} {s t : State} (h : exec i s = .next t) : t.pmem = s.pmem := by
  rcases exec_next h with ⟨r, v, -, rfl⟩ | ⟨o, e, -, rfl⟩ | ⟨o, -, -, rfl⟩ | ⟨o, -, -, -, -, rfl⟩ | ⟨r, -, rfl⟩ <;> simp

theorem exec_maxSteps {i : Instr} {s t : State} (h : exec i s = .next t) : t.maxSteps = s.maxSteps := by
  rcases exec_next h with ⟨r, v, -, rfl⟩ | ⟨o, e, -, rfl⟩ | ⟨o, -, -, rfl⟩ | ⟨o, -, -, -, -, rfl⟩ | ⟨r, -, rfl⟩ <;> simp

/-- A completed instruction keeps the status and counts one step; any other is a fault entry. -/
theorem exec_status_steps {i : Instr} {s t : State} (h : exec i s = .next t) :
    (t.status = s.status ∧ t.steps = s.steps + 1) ∨ (t.status = .fault ∧ t.steps = s.steps) := by
  rcases exec_next h with ⟨r, v, -, rfl⟩ | ⟨o, e, -, rfl⟩ | ⟨o, -, -, rfl⟩ | ⟨o, -, -, -, -, rfl⟩ | ⟨r, -, rfl⟩ <;> simp

/-- The only fault an instruction takes is `InvalidOperand`, by the shared operation. -/
theorem exec_fault {i : Instr} {s t : State} (hs : s.status ≠ .fault) (h : exec i s = .next t)
    (ht : t.status = .fault) : ∃ reason, reason ≠ .budget ∧ t = raiseInvalidOperand s i reason := by
  rcases exec_next h with ⟨r, v, -, rfl⟩ | ⟨o, e, -, rfl⟩ | ⟨o, -, -, rfl⟩ | ⟨o, -, -, -, -, rfl⟩ | ⟨r, hr, rfl⟩
  · simp [hs] at ht
  · simp [hs] at ht
  · simp [hs] at ht
  · simp [hs] at ht
  · exact ⟨r, hr, rfl⟩

end Sys2Proof.Machine
end

