-- ==== Sys2Proof/Laws/PerInstr.lean ====
section
/-! SUPPORT. Statements about every instruction as syntax, one lemma per constructor. -/

namespace Sys2Proof.Laws.OpcodeRowCovers

/-- The word of the instruction belongs to the opcode-table row of its mnemonic (30_encoding.md R77). -/
def Statement (i : Instr) : Prop :=
  ∃ row ∈ opcodeTable, row.mnemonic = i.mnemonic ∧ row.covers (encodeWord i) = true

theorem adv (o : Element) : Statement (.adv o) :=
  ⟨⟨"adv", 0b111000#6, 0b000000#6⟩, by simp [opcodeTable], rfl, by revert o; decide⟩

theorem bxl (o : Element) : Statement (.bxl o) :=
  ⟨⟨"bxl", 0b111000#6, 0b001000#6⟩, by simp [opcodeTable], rfl, by revert o; decide⟩

theorem bst (o : Element) : Statement (.bst o) :=
  ⟨⟨"bst", 0b111000#6, 0b010000#6⟩, by simp [opcodeTable], rfl, by revert o; decide⟩

theorem jnz (o : Element) : Statement (.jnz o) :=
  ⟨⟨"jnz", 0b111000#6, 0b011000#6⟩, by simp [opcodeTable], rfl, by revert o; decide⟩

theorem bxc (o : Element) : Statement (.bxc o) :=
  ⟨⟨"bxc", 0b111000#6, 0b100000#6⟩, by simp [opcodeTable], rfl, by revert o; decide⟩

theorem out (o : Element) : Statement (.out o) :=
  ⟨⟨"out", 0b111000#6, 0b101000#6⟩, by simp [opcodeTable], rfl, by revert o; decide⟩

theorem bdv (o : Element) : Statement (.bdv o) :=
  ⟨⟨"bdv", 0b111000#6, 0b110000#6⟩, by simp [opcodeTable], rfl, by revert o; decide⟩

theorem cdv (o : Element) : Statement (.cdv o) :=
  ⟨⟨"cdv", 0b111000#6, 0b111000#6⟩, by simp [opcodeTable], rfl, by revert o; decide⟩

end Sys2Proof.Laws.OpcodeRowCovers
end

