-- ==== Sys2Proof/Tests/Slice0.lean ====
section
/-! SUPPORT. The model's own tests: checks of ill-formed terms, decodings written out from the spec, one-step vectors of
95_test_vectors.md, and a witness for the hypotheses of every statement. -/

namespace Sys2Proof.Tests

open Sys2Proof.Machine Sys2Proof.Spec

/-- A running state before its first step, with a budget of 100 (95_test_vectors.md, conventions). -/
def at0 (p : List Element) (a b c : Nat) : State := State.launched p a b c 100

/-- The next state of an outcome, if it is one. -/
def nextState (o : Host.Outcome State Fault Refusal) : Option State :=
  match o with
  | .next t => some t
  | .fault _ => none
  | .refused _ => none

/-- The launch arguments of 95_test_vectors.md, with a budget of 100. -/
def args0 (p : List Nat) (a b c : Nat) : LaunchArgs := { program := p, a := a, b := b, c := c, maxSteps := 100 }

/-- What a vector of 95_test_vectors.md gives of the state after one step. -/
structure View where
  a : Nat
  b : Nat
  c : Nat
  pc : Nat
  steps : Nat
  out : List Element
  status : Status
deriving DecidableEq, Repr

/-- The view of the next state of an outcome, if it is one. -/
def view (o : Host.Outcome State Fault Refusal) : Option View :=
  (nextState o).map fun t => ⟨t.a, t.b, t.c, t.pc, t.steps, t.out, t.status⟩

/-! ### Ill-formed terms are refused (30_encoding.md R73, vectors M1 to M3; 00_scope.md R5, glossary) -/

theorem test_odd_length_refused : programValid [0, 1, 5] = false := by decide
theorem test_large_element_refused : programValid [0, 8] = false := by decide
theorem test_reserved_words_load : programValid [0, 7, 5, 7] = true := by decide
theorem test_narrow_config_refused : Config.valid { W := some 2, LMAX := none } = false := by decide
theorem test_odd_capacity_refused : Config.valid { W := none, LMAX := some 3 } = false := by decide
theorem test_reserved_operand_ill_formed : Instr.wellFormed 6 (.adv 7#3) = false := by decide
theorem test_odd_target_ill_formed : Instr.wellFormed 6 (.jnz 1#3) = false := by decide
theorem test_far_target_ill_formed : Instr.wellFormed 6 (.jnz 6#3) = false := by decide
theorem test_literal_seven_well_formed : Instr.wellFormed 6 (.bxl 7#3) = true := by decide

/-! ### Words written out from the patterns of 30_encoding.md R77 (vectors E1 to E11) -/

theorem test_decode_adv : decodeTableWord 8 0b000001 = some (.adv 1#3) := by decide
theorem test_decode_bxl : decodeTableWord 8 0b001111 = some (.bxl 7#3) := by decide
theorem test_decode_bst : decodeTableWord 8 0b010110 = some (.bst 6#3) := by decide
theorem test_decode_jnz : decodeTableWord 8 0b011000 = some (.jnz 0#3) := by decide
theorem test_decode_bxc : decodeTableWord 8 0b100111 = some (.bxc 7#3) := by decide
theorem test_decode_out : decodeTableWord 8 0b101100 = some (.out 4#3) := by decide
theorem test_decode_bdv : decodeTableWord 8 0b110101 = some (.bdv 5#3) := by decide
theorem test_decode_cdv : decodeTableWord 8 0b111011 = some (.cdv 3#3) := by decide
theorem test_decode_seven_bits : decodeTableWord 8 0b1000000 = none := by decide
theorem test_flat_to_words : wordForm [2#3, 4#3, 1#3, 3#3] = [0b010100#6, 0b001011#6] := by decide

/-! ### One step of each instruction, from the vectors of 95_test_vectors.md -/

/-- A2 -/
theorem test_adv_literal : view (step (at0 [0#3, 1#3] 729 0 0)) = some ⟨364, 0, 0, 1, 1, [], .running⟩ := by decide
/-- A11: a huge shift amount gives 0; reduced modulo 64 it would give 1 -/
theorem test_adv_huge :
    view (step (at0 [0#3, 5#3] 18446744073709551615 18446744073709551615 0)) =
      some ⟨0, 18446744073709551615, 0, 1, 1, [], .running⟩ := by decide
/-- A14: the shift amount is the old B -/
theorem test_bdv_old_b : view (step (at0 [6#3, 5#3] 256 4 0)) = some ⟨256, 16, 0, 1, 1, [], .running⟩ := by decide
/-- A17: reserved operand -/
theorem test_bdv_reserved : view (step (at0 [6#3, 7#3] 5 6 7)) = some ⟨5, 6, 7, 0, 0, [], .fault⟩ := by decide
/-- A19: the shift amount is the old C -/
theorem test_cdv_old_c : view (step (at0 [7#3, 6#3] 2024 0 2)) = some ⟨2024, 0, 506, 1, 1, [], .running⟩ := by decide
/-- S2 -/
theorem test_bxl : view (step (at0 [1#3, 7#3] 0 29 0)) = some ⟨0, 26, 0, 1, 1, [], .running⟩ := by decide
/-- X3 -/
theorem test_bxl_wide :
    view (step (at0 [1#3, 7#3] 0 18446744073709551615 0)) =
      some ⟨0, 18446744073709551608, 0, 1, 1, [], .running⟩ := by decide
/-- S1 -/
theorem test_bst : view (step (at0 [2#3, 6#3] 0 0 9)) = some ⟨0, 1, 9, 1, 1, [], .running⟩ := by decide
/-- X10 -/
theorem test_bst_reserved : view (step (at0 [2#3, 7#3] 1 2 3)) = some ⟨1, 2, 3, 0, 0, [], .fault⟩ := by decide
/-- S5 -/
theorem test_bxc :
    view (step (at0 [4#3, 0#3] 0 2024 43690)) = some ⟨0, 44354, 43690, 1, 1, [], .running⟩ := by decide
/-- X11: operand 7 is ignored -/
theorem test_bxc_seven : view (step (at0 [4#3, 7#3] 0 5 5)) = some ⟨0, 0, 5, 1, 1, [], .running⟩ := by decide
/-- J2: not taken, operand not examined -/
theorem test_jnz_not_taken : view (step (at0 [3#3, 7#3] 0 0 0)) = some ⟨0, 0, 0, 1, 1, [], .running⟩ := by decide
/-- J7: taken, forward -/
theorem test_jnz_taken :
    view (step (at0 [3#3, 4#3, 5#3, 1#3, 5#3, 2#3] 1 0 0)) = some ⟨1, 0, 0, 2, 1, [], .running⟩ := by decide
/-- O8: 9 is emitted as 1 -/
theorem test_out_mod_eight : view (step (at0 [5#3, 6#3] 0 0 9)) = some ⟨0, 0, 9, 1, 1, [1#3], .running⟩ := by decide
/-- O9 -/
theorem test_out_reserved : view (step (at0 [5#3, 7#3] 1 2 3)) = some ⟨1, 2, 3, 0, 0, [], .fault⟩ := by decide

/-! ### Faults, their records and their priority (60_exceptions.md) -/

/-- J3: odd and out of bounds is reported as odd -/
theorem test_jump_odd_first :
    (nextState (step (at0 [3#3, 7#3] 1 0 0))).map (fun t => (t.cause, t.info)) =
      some (some .invalidOperand,
        some { reason := .jumpOdd, pc := 0, opcode := some 3#3, operand := some 7#3 }) := by decide
/-- J5: a target equal to `L` faults -/
theorem test_jump_to_length :
    (nextState (step (at0 [3#3, 2#3] 1 0 0))).bind (fun t => t.info.map (fun r => r.reason)) =
      some .jumpOutOfBounds := by decide
/-- B1: a budget of 0 -/
theorem test_budget_zero :
    (nextState (step (State.launched [3#3, 0#3] 1 0 0 0))).map (fun t => (t.cause, t.info)) =
      some (some .stepBudgetExceeded,
        some { reason := .budget, pc := 0, opcode := none, operand := none }) := by decide
/-- B2: the halt test comes before the budget -/
theorem test_empty_program_halts :
    view (step (State.launched [] 1 2 3 0)) = some ⟨1, 2, 3, 0, 0, [], .halted⟩ := by decide
/-- B9: the budget hides the operand fault of `out 7` at the last pass -/
theorem test_budget_hides_operand_fault :
    (nextState (step { State.launched [5#3, 7#3] 6 0 0 2 with steps := 2 })).bind (fun t => t.cause) =
      some .stepBudgetExceeded := by decide

/-! ### Launch and result -/

/-- M2 -/
theorem test_launch_malformed : run Config.recommended (args0 [0, 8] 0 0 0) = some (.err .malformedProgram) := by decide
/-- A register of more than 64 bits is refused at `W = 64`. -/
theorem test_launch_wide_register : run Config.recommended (args0 [] (2 ^ 64) 0 0) = none := by decide
/-- S6 -/
theorem test_run_empty : run Config.recommended (args0 [] 5 6 7) = some (.ok []) := by decide
/-- S1: `2,6` with C = 9, to its end -/
theorem test_run_bst : run Config.recommended (args0 [2, 6] 0 0 9) = some (.ok []) := by decide
/-- A12: no partial result -/
theorem test_run_fault : run Config.recommended (args0 [0, 7] 5 0 0) = some (.err .invalidOperand) := by decide
/-- The host's fixture: the first step after reset executes the placed word `adv 1`. -/
theorem test_fetch_word : view (step (State.reset.withFetchWord 8 1)) = some ⟨0, 0, 0, 1, 1, [], .running⟩ := by decide

/-- S10 -/
theorem test_render : render [4#3, 6#3, 3#3] = "4,6,3" := by decide
/-- The listing form of 30_encoding.md R82: its own example. -/
theorem test_listing : (Instr.jnz 0#3).listing = "jnz 0" := by decide

/-! ### Witnesses: states and operands that meet the hypotheses of the statements -/

theorem witness_DecodeEncodeRoundTrip : 64 ≤ 64 := by decide
theorem witness_ProgramRoundTrip :
    [0#3, 1#3, 5#3, 4#3].length % 2 = 0 ∧ [0#3, 1#3, 5#3, 4#3][2 * 1]? = some 5#3 ∧
      [0#3, 1#3, 5#3, 4#3][2 * 1 + 1]? = some 4#3 := by decide
theorem witness_FlatAndWordFormsAgree :
    [0#3, 1#3].length % 2 = 0 ∧ (wordForm [0#3, 1#3])[0]? = some 0b000001#6 := by decide

/-- A launch that creates a run, for every statement about one. -/
theorem witness_launch :
    launch Config.recommended (args0 [3, 2, 5, 4] 13 0 0) = .next (at0 [3#3, 2#3, 5#3, 4#3] 13 0 0) := rfl
theorem witness_LoaderAcceptsExactlyValidPrograms_malformed :
    Presentable Config.recommended (args0 [0, 8] 0 0 0) ∧ ∃ e ∈ (args0 [0, 8] 0 0 0).program, 7 < e := by
  refine ⟨⟨fun w h => ?_, fun n h => ?_⟩, 8, by decide, by decide⟩
  · cases h; decide
  · cases h
theorem witness_LoaderAcceptsExactlyValidPrograms_odd :
    Presentable Config.unbounded (args0 [5] 0 0 0) ∧ (args0 [5] 0 0 0).program.length % 2 = 1 :=
  ⟨⟨(by intro w h; cases h), (by intro n h; cases h)⟩, by decide⟩
theorem witness_LoaderAcceptsExactlyValidPrograms_valid :
    Presentable { W := some 3, LMAX := some 2 } (args0 [0, 7] 7 0 7) ∧
      (args0 [0, 7] 7 0 7).program.length % 2 = 0 ∧ ∀ e ∈ (args0 [0, 7] 7 0 7).program, e ≤ 7 := by
  refine ⟨⟨fun w h => ?_, fun n h => ?_⟩, by decide, by decide⟩
  · cases h; decide
  · cases h; decide
theorem witness_LoaderAcceptsExactlyValidPrograms_long :
    ({ W := none, LMAX := some 0 } : Config).LMAX = some 0 ∧ 0 < (args0 [0, 7] 0 0 0).program.length := by decide
theorem witness_UnpresentableLaunchIsRefused_register :
    Config.recommended.W = some 64 ∧ 2 ^ 64 ≤ (args0 [] 0 (2 ^ 64) 0).b := by decide
theorem witness_UnpresentableLaunchIsRefused_long :
    ({ W := none, LMAX := some 0 } : Config).LMAX = some 0 ∧ 0 < (args0 [0, 7] 0 0 0).program.length ∧
      (args0 [0, 7] 0 0 0).program.length % 2 = 0 ∧ (∀ e ∈ (args0 [0, 7] 0 0 0).program, e ≤ 7) := by decide
theorem witness_EmptyProgramHaltsAtOnce :
    Presentable Config.unbounded (args0 [] 5 6 7) ∧ (args0 [] 5 6 7).program = [] :=
  ⟨⟨(by intro w h; cases h), (by intro n h; cases h)⟩, rfl⟩

/-- A running state in mid-program that meets the invariant: every statement about a step that executes. -/
theorem witness_running_step :
    (at0 [3#3, 2#3, 5#3, 4#3] 13 0 0).status = .running ∧
      (at0 [3#3, 2#3, 5#3, 4#3] 13 0 0).pc < (at0 [3#3, 2#3, 5#3, 4#3] 13 0 0).pmem.length / 2 ∧
      (at0 [3#3, 2#3, 5#3, 4#3] 13 0 0).steps ≠ (at0 [3#3, 2#3, 5#3, 4#3] 13 0 0).maxSteps ∧
      (nextState (step (at0 [3#3, 2#3, 5#3, 4#3] 13 0 0))).isSome = true := by decide
theorem witness_RunInv : RunInv (at0 [3#3, 2#3, 5#3, 4#3] 13 0 0) :=
  ⟨by decide, by decide, by decide, by decide, by decide, fun h => by cases h⟩
/-- At `pc = N`, with the budget used up: the halt clauses, at the boundary where the budget clause would apply below. -/
theorem witness_at_end :
    ({ State.launched [0#3, 0#3] 0 0 0 1 with pc := 1, steps := 1 } : State).status = .running ∧
      ({ State.launched [0#3, 0#3] 0 0 0 1 with pc := 1, steps := 1 } : State).pmem.length / 2 ≤ 1 ∧
      (nextState (step { State.launched [0#3, 0#3] 0 0 0 1 with pc := 1, steps := 1 })).map (fun t => t.status) =
        some .halted := by decide
theorem witness_at_end_inv : RunInv { State.launched [0#3, 0#3] 0 0 0 1 with pc := 1, steps := 1 } :=
  ⟨by decide, by decide, by decide, by decide, by decide, fun h => by cases h⟩
/-- Below `N` with the budget used up: the budget clauses. -/
theorem witness_budget_used_up :
    (State.launched [3#3, 0#3] 1 0 0 0).status = .running ∧
      (State.launched [3#3, 0#3] 1 0 0 0).pc < (State.launched [3#3, 0#3] 1 0 0 0).pmem.length / 2 ∧
      (State.launched [3#3, 0#3] 1 0 0 0).steps = (State.launched [3#3, 0#3] 1 0 0 0).maxSteps ∧
      (nextState (step (State.launched [3#3, 0#3] 1 0 0 0))).map (fun t => (t.status, t.cause)) =
        some (.fault, some .stepBudgetExceeded) := by decide
/-- A step that enters `InvalidOperand`: the statements about a fault entry. -/
theorem witness_operand_fault :
    (at0 [0#3, 7#3] 5 0 0).status = .running ∧
      (nextState (step (at0 [0#3, 7#3] 5 0 0))).map (fun t => (t.status, t.cause)) =
        some (.fault, some .invalidOperand) ∧
      (nextState (exec (.adv 7#3) (at0 [0#3, 7#3] 5 0 0))).map (fun t => t.status) = some .fault := by decide
theorem witness_FinalStatesStayFinal :
    (halt (at0 [] 0 0 0)).status = .halted ∧
      (raiseStepBudgetExceeded (at0 [0#3, 0#3] 0 0 0)).status = .fault ∧
      (raiseStepBudgetExceeded (at0 [0#3, 0#3] 0 0 0)).cause = some .stepBudgetExceeded := by decide
/-- An `out` that completes, an instruction that is no `out`, a `jnz` not taken. -/
theorem witness_completed_instructions :
    (nextState (exec (.out 4#3) (at0 [] 13 0 0))).map (fun t => t.status) = some .running ∧
      (nextState (exec (.adv 4#3) (at0 [] 13 0 0))).map (fun t => t.status) = some .running ∧
      (nextState (exec (.jnz 7#3) (at0 [] 0 0 0))).map (fun t => t.status) = some .running ∧
      (at0 [] 0 0 0).a = 0 := by decide
theorem witness_PcStaysInRange_jump :
    (at0 [3#3, 2#3, 5#3, 4#3] 13 0 0).a ≠ 0 ∧
      (nextState (exec (.jnz 2#3) (at0 [3#3, 2#3, 5#3, 4#3] 13 0 0))).map (fun t => (t.status, t.pc)) =
        some (.running, 1) := by decide
theorem witness_WidthDoesNotMatter : 3 ≤ 3 ∧ FitsBits 3 (at0 [3#3, 2#3, 5#3, 4#3] 7 0 7) := by
  refine ⟨by decide, ?_, ?_, ?_⟩ <;> decide
theorem witness_WellFormedProgram :
    WellFormedProgram (at0 [3#3, 2#3, 5#3, 4#3] 13 0 0) ∧ NoInvalidOperand (at0 [3#3, 2#3, 5#3, 4#3] 13 0 0) := by
  refine ⟨?_, fun h => by cases h⟩
  intro i hi
  have : i ∈ [Instr.jnz 2#3, Instr.out 4#3] := hi
  simp only [List.mem_cons, List.not_mem_nil, or_false] at this
  rcases this with rfl | rfl <;> decide
/-- Budgets on both sides of the steps of a run that halts after one step. -/
theorem witness_BudgetIsMonotone_halted :
    launch Config.unbounded (args0 [0, 1] 8 0 0) = .next (at0 [0#3, 1#3] 8 0 0) ∧
      launch Config.unbounded { args0 [0, 1] 8 0 0 with maxSteps := 1 } = .next (State.launched [0#3, 1#3] 8 0 0 1) ∧
      launch Config.unbounded { args0 [0, 1] 8 0 0 with maxSteps := 0 } = .next (State.launched [0#3, 1#3] 8 0 0 0) ∧
      (runToEnd (at0 [0#3, 1#3] 8 0 0)).status = .halted ∧ (runToEnd (at0 [0#3, 1#3] 8 0 0)).steps = 1 :=
  ⟨rfl, rfl, rfl, by decide, by decide⟩
/-- Budgets on both sides of the steps of a run that faults at its first instruction. -/
theorem witness_BudgetIsMonotone_faulted :
    launch Config.unbounded (args0 [0, 7] 8 0 0) = .next (at0 [0#3, 7#3] 8 0 0) ∧
      launch Config.unbounded { args0 [0, 7] 8 0 0 with maxSteps := 1 } = .next (State.launched [0#3, 7#3] 8 0 0 1) ∧
      launch Config.unbounded { args0 [0, 7] 8 0 0 with maxSteps := 0 } = .next (State.launched [0#3, 7#3] 8 0 0 0) ∧
      (runToEnd (at0 [0#3, 7#3] 8 0 0)).status = .fault ∧
      (runToEnd (at0 [0#3, 7#3] 8 0 0)).cause = some .invalidOperand ∧
      (runToEnd (at0 [0#3, 7#3] 8 0 0)).steps = 0 :=
  ⟨rfl, rfl, rfl, by decide, by decide, by decide⟩
/-- The empty program is its own output, and is so for every A. -/
theorem witness_QuineNeedsAsManyStepsAsElements : isQuineValue Config.unbounded [] 0 5 := ⟨rfl, rfl⟩
theorem witness_PlacedWordRunsNext : decodeTableWord 8 63 = some (.cdv 7#3) := by decide

/-- A value for each of the four combo clauses, at the edge of the literal range, and none for 7. -/
theorem witness_ComboValue :
    ComboValue (at0 [] 13 4 9) 3#3 3 ∧ ComboValue (at0 [] 13 4 9) 4#3 13 ∧ ComboValue (at0 [] 13 4 9) 5#3 4 ∧
      ComboValue (at0 [] 13 4 9) 6#3 9 ∧ (7#3 : Element) ≠ 6#3 :=
  ⟨.inl ⟨by decide, rfl⟩, .inr (.inl ⟨rfl, rfl⟩), .inr (.inr (.inl ⟨rfl, rfl⟩)), .inr (.inr (.inr ⟨rfl, rfl⟩)), by decide⟩
theorem witness_CdvDividesAIntoC_writes :
    (nextState (exec (.cdv 0#3) (at0 [] 5 0 9))).map (fun t => t.c) = some 5 ∧ (at0 [] 5 0 9).c ≠ 5 := by decide
theorem witness_DivideCornerCases : (at0 [] 13 4 0).a < 2 ^ 4 ∧ 4 ≤ (at0 [] 13 4 0).b := by decide
theorem witness_OnlyAdvLowersA :
    (nextState (exec (.adv 1#3) (at0 [] 13 0 0))).map (fun t => t.a) = some 6 ∧
      ComboValue (at0 [] 13 0 0) 1#3 1 ∧ (1 : Nat) ≠ 0 ∧ (at0 [] 13 0 0).a ≠ 0 :=
  ⟨by decide, .inl ⟨by decide, rfl⟩, by decide, by decide⟩
theorem witness_FiniteWidthUnitsAgree : 3 ≤ 3 ∧ 3 ≤ (3#3 : BitVec 3).toNat := by decide
theorem witness_BitwiseFamilyLaws :
    (nextState (exec (.bst 7#3) (at0 [] 1 2 3))).isSome = true ∧ (nextState (exec (.bxl 7#3) (at0 [] 1 2 3))).isSome = true ∧
      (nextState (exec (.bxc 7#3) (at0 [] 1 2 3))).isSome = true ∧ (at0 [] 1 2 3).b < 2 ^ 3 ∧ (at0 [] 1 2 3).c < 2 ^ 3 := by
  decide
/-- A state for each clause of `jnz`: not taken, taken to the last pair, odd, and exactly at `L`. -/
theorem witness_JnzClauses :
    (at0 [3#3, 0#3] 0 0 0).a = 0 ∧
      ((at0 [3#3, 0#3] 1 0 0).a ≠ 0 ∧ (0#3 : Element).toNat % 2 = 0 ∧ (0#3 : Element).toNat < (at0 [3#3, 0#3] 1 0 0).pmem.length) ∧
      ((at0 [3#3, 1#3] 1 0 0).a ≠ 0 ∧ (1#3 : Element).toNat % 2 = 1) ∧
      ((at0 [3#3, 3#3] 1 0 0).a ≠ 0 ∧ (3#3 : Element).toNat % 2 = 1 ∧ (at0 [3#3, 3#3] 1 0 0).pmem.length ≤ (3#3 : Element).toNat) ∧
      ((at0 [3#3, 2#3] 1 0 0).a ≠ 0 ∧ (2#3 : Element).toNat % 2 = 0 ∧ (at0 [3#3, 2#3] 1 0 0).pmem.length ≤ (2#3 : Element).toNat) := by
  decide
/-- The three lengths of R153, each with its least target. -/
theorem witness_JumpOutOfBoundsExactly :
    ([3#3, 2#3] : List Element).length ≤ (2#3 : Element).toNat ∧
      ([3#3, 4#3, 0#3, 0#3] : List Element).length ≤ (4#3 : Element).toNat ∧
      ([3#3, 6#3, 0#3, 0#3, 0#3, 0#3] : List Element).length ≤ (6#3 : Element).toNat := by decide
/-- Every instruction completes in some state: the frames are about something. -/
theorem witness_frames :
    ∀ i ∈ [Instr.adv 4#3, .bxl 7#3, .bst 5#3, .jnz 0#3, .bxc 7#3, .out 6#3, .bdv 5#3, .cdv 6#3],
      (nextState (exec i (at0 [3#3, 0#3] 13 4 9))).map (fun t => (t.status, t.steps)) = some (.running, 1) := by decide
/-- Two states that agree on A alone, for `adv 1` and `jnz 0`, and differ in B, C, pc, out, steps and status. -/
theorem witness_InstructionsReadAndWriteTheirRegisters :
    let s := at0 [3#3, 0#3] 13 4 9
    let s' : State := { at0 [3#3, 0#3] 13 0 0 with pc := 1, out := [1#3], steps := 5, status := .halted }
    s'.pmem.length = s.pmem.length ∧ (∀ r ∈ reads (.adv 1#3), regOf s' r = regOf s r) ∧
      (∀ r ∈ reads (.jnz 0#3), regOf s' r = regOf s r) ∧
      (nextState (exec (.adv 1#3) s)).isSome = true ∧ (nextState (exec (.adv 1#3) s')).isSome = true := by decide

end Sys2Proof.Tests
end

section
/-! What every instruction and every step of a running machine does: it answers a next state, and keeps the program
store (20_memory.md R51). -/

namespace Sys2Proof.Machine

theorem withCombo_isNext (i : Instr) (s : State) (k : Nat → State) : ∃ t, withCombo i s k = .next t := by
  unfold withCombo
  split
  · exact ⟨_, rfl⟩
  · exact ⟨_, rfl⟩

theorem execJnz_isNext (o : Element) (s : State) : ∃ t, execJnz o s = .next t := by
  unfold execJnz
  split
  · split
    · exact ⟨_, rfl⟩
    · exact ⟨_, rfl⟩
  · exact ⟨_, rfl⟩

/-- No instruction stops the machine outside its state: each answers a next state. -/
theorem exec_isNext (i : Instr) (s : State) : ∃ t, exec i s = .next t := by
  cases i with
  | adv o => exact withCombo_isNext ..
  | bxl o => exact ⟨_, execBxl_eq o s⟩
  | bst o => exact withCombo_isNext ..
  | jnz o => exact execJnz_isNext o s
  | bxc o => exact ⟨_, execBxc_eq o s⟩
  | out o => exact withCombo_isNext ..
  | bdv o => exact withCombo_isNext ..
  | cdv o => exact withCombo_isNext ..

theorem step_running_isNext {s : State} (hs : s.status = .running) : ∃ t, step s = .next t := by
  rw [step_running hs]
  rcases Nat.lt_or_ge s.pc (instrCount s) with hpc | hpc
  · by_cases hb : s.steps = s.maxSteps
    · exact ⟨_, runPass_budget hpc hb⟩
    · rw [runPass_exec hpc hb]
      exact exec_isNext _ s
  · exact ⟨_, runPass_at_end hpc⟩

theorem step_pmem {s t : State} (h : step s = .next t) : t.pmem = s.pmem := by
  rcases step_next h with ⟨-, rfl⟩ | ⟨-, -, rfl⟩ | ⟨-, -, -, rfl⟩ | ⟨-, -, hpc, hexec⟩
  · rfl
  · rfl
  · rfl
  · exact exec_pmem hexec

end Sys2Proof.Machine
end

section
/-! The width of the registers (10_state.md R23): no step of the machine leaves the `m` bits its registers start in, so
that a machine that truncates what it writes takes the spec's own step. -/

namespace Sys2Proof.Machine

open Sys2Proof.Spec

/-! ### Every value an instruction writes fits -/

theorem eight_le_two_pow {m : Nat} (hm : 3 ≤ m) : 8 ≤ 2 ^ m :=
  Nat.pow_le_pow_right (n := 2) (by decide) hm

theorem fitsBits_completeNext_writeReg {m : Nat} {s : State} (h : FitsBits m s) (r : Reg) {v : Nat} (hv : v < 2 ^ m) :
    FitsBits m (completeNext (writeReg s r v)) := by
  obtain ⟨ha, hb, hc⟩ := h
  cases r
  · exact ⟨hv, hb, hc⟩
  · exact ⟨ha, hv, hc⟩
  · exact ⟨ha, hb, hv⟩

theorem fitsBits_of_divideInto {m : Nat} {dest : Reg} {i : Instr} {s t : State} (h : FitsBits m s)
    (ht : divideInto dest i s = .next t) : FitsBits m t := by
  rcases divideInto_next ht with ⟨k, -, rfl⟩ | ⟨-, rfl⟩
  · exact fitsBits_completeNext_writeReg h dest (Nat.lt_of_le_of_lt (lsr_le s.a k) h.1)
  · exact h

/-- No instruction widens a register beyond the machine's width, three bits or more. -/
theorem fitsBits_of_exec {m : Nat} (hm : 3 ≤ m) {i : Instr} {s t : State} (h : FitsBits m s)
    (ht : exec i s = .next t) : FitsBits m t := by
  have h8 := eight_le_two_pow hm
  obtain ⟨-, hb, hc⟩ := id h
  cases i with
  | adv o => exact fitsBits_of_divideInto h ht
  | bdv o => exact fitsBits_of_divideInto h ht
  | cdv o => exact fitsBits_of_divideInto h ht
  | bxl o =>
    cases ht
    exact fitsBits_completeNext_writeReg h .B (bitXor_lt hb (Nat.lt_of_lt_of_le o.isLt h8))
  | bxc o =>
    cases ht
    exact fitsBits_completeNext_writeReg h .B (bitXor_lt hb hc)
  | bst o =>
    rcases execBst_next ht with ⟨v, -, rfl⟩ | ⟨-, rfl⟩
    · exact fitsBits_completeNext_writeReg h .B (Nat.lt_of_lt_of_le (zext_lt _) h8)
    · exact h
  | jnz o => rcases execJnz_next ht with ⟨-, rfl⟩ | ⟨-, -, -, rfl⟩ | ⟨-, -, rfl⟩ | ⟨-, -, -, rfl⟩ <;> exact h
  | out o => rcases execOut_next ht with ⟨v, -, rfl⟩ | ⟨-, rfl⟩ <;> exact h

/-- No step widens a register beyond the machine's width. -/
theorem fitsBits_of_step {m : Nat} (hm : 3 ≤ m) {s t : State} (h : FitsBits m s) (ht : step s = .next t) :
    FitsBits m t := by
  rcases step_next ht with ⟨-, rfl⟩ | ⟨-, -, rfl⟩ | ⟨-, -, -, rfl⟩ | ⟨-, -, hpc, hexec⟩
  · exact h
  · exact h
  · exact h
  · exact fitsBits_of_exec hm h hexec

/-! ### The spec's step function, instruction by instruction -/

/-- The spec's table of combo operands, as `stepWith` writes it, is the model's `combo` (40_execution_cycle.md R95). -/
theorem combo_eq_table (s : State) (o : Element) :
    (if o.toNat ≤ 3 then some o.toNat else if o.toNat = 4 then some s.a else if o.toNat = 5 then some s.b
      else if o.toNat = 6 then some s.c else none) = combo s o := by
  rcases element_cases o with rfl | rfl | rfl | rfl | rfl | rfl | rfl | rfl <;> rfl

/-- `trunc` leaves the registers of `t` as they are. -/
def FixesRegs (trunc : Nat → Nat) (t : State) : Prop := trunc t.a = t.a ∧ trunc t.b = t.b ∧ trunc t.c = t.c

theorem completeNext_writeReg_trunc {trunc : Nat → Nat} {s : State} {r : Reg} {v : Nat}
    (hfix : FixesRegs trunc (completeNext (writeReg s r v))) :
    completeNext (writeReg s r (trunc v)) = completeNext (writeReg s r v) := by
  obtain ⟨ha, hb, hc⟩ := hfix
  have hv : trunc v = v := by
    cases r
    · exact ha
    · exact hb
    · exact hc
  rw [hv]

/-- Resolving the combo operand as the spec's `Step` does, with `f` where the model goes on with `k`. -/
theorem match_combo_eq_of_withCombo {i : Instr} {s t : State} {k f : Nat → State} (h : withCombo i s k = .next t)
    (hf : ∀ v, t = k v → f v = k v) : 
    (match combo s i.operand with
      | none => raiseInvalidOperand s i .combo7
      | some v => f v) = t := by
  rcases withCombo_next h with ⟨v, hv, rfl⟩ | ⟨h7, rfl⟩
  · rw [hv]
    exact hf v rfl
  · rw [(combo_eq_none_iff s _).2 h7]

/-- Where the truncation changes nothing that the instruction leaves in the registers, the truncating `Step` of
40_execution_cycle.md R102 is the model's execution of the pair fetched. -/
theorem stepWith_eq_of_exec {trunc : Nat → Nat} {s t : State} {opc o : Element} (hpc : s.pc < instrCount s)
    (hb : s.steps ≠ s.maxSteps) (hopc : readPmem s (2 * s.pc) = some opc) (ho : readPmem s (2 * s.pc + 1) = some o)
    (ht : exec (decode opc o) s = .next t) (hfix : FixesRegs trunc t) : stepWith trunc s = t := by
  have hrun : ¬ s.pmem.length / 2 ≤ s.pc := Nat.not_le.2 hpc
  have hopc' : s.pmem.getD (2 * s.pc) 0#3 = opc := by simpa [readPmem] using congrArg (·.getD 0#3) hopc
  have ho' : s.pmem.getD (2 * s.pc + 1) 0#3 = o := by simpa [readPmem] using congrArg (·.getD 0#3) ho
  have hdiv {r : Reg} (v : Nat) (hv : t = completeNext (writeReg s r (lsr s.a v))) :
      completeNext (writeReg s r (trunc (s.a / 2 ^ v))) = completeNext (writeReg s r (lsr s.a v)) := by
    rw [← lsr_eq_div]
    exact completeNext_writeReg_trunc (hv ▸ hfix)
  simp only [stepWith, hrun, if_false, hb, hopc', ho', combo_eq_table]
  rcases element_cases opc with rfl | rfl | rfl | rfl | rfl | rfl | rfl | rfl <;>
    simp only [BitVec.reduceToNat, Nat.reduceEqDiff, reduceIte]
  · exact match_combo_eq_of_withCombo (i := .adv o) ht (hdiv (r := .A))
  · cases ht
    exact completeNext_writeReg_trunc (r := .B) hfix
  · refine match_combo_eq_of_withCombo (i := .bst o) ht fun v hv => ?_
    rw [← zext_low3]
    exact completeNext_writeReg_trunc (r := .B) (hv ▸ hfix)
  · rcases execJnz_next ht with ⟨ha, rfl⟩ | ⟨ha, he, hl, rfl⟩ | ⟨ha, he, rfl⟩ | ⟨ha, he, hl, rfl⟩
    · rw [if_pos ha]; rfl
    · rw [if_neg ha, if_neg (by omega), if_neg (by omega)]; rfl
    · rw [if_neg ha, if_pos he]; rfl
    · rw [if_neg ha, if_neg (by omega), if_pos hl]; rfl
  · cases ht
    exact completeNext_writeReg_trunc (r := .B) hfix
  · exact match_combo_eq_of_withCombo (i := .out o) ht fun v _ => rfl
  · exact match_combo_eq_of_withCombo (i := .bdv o) ht (hdiv (r := .B))
  · exact match_combo_eq_of_withCombo (i := .cdv o) ht (hdiv (r := .C))

/-- Where the truncation changes nothing that the step leaves in the registers, the step of a running machine is the
truncating `Step` of 40_execution_cycle.md R102. -/
theorem step_eq_stepWith {trunc : Nat → Nat} {s : State} (hs : s.status = .running)
    (hfix : ∀ t, step s = .next t → FixesRegs trunc t) : step s = .next (stepWith trunc s) := by
  obtain ⟨t, ht⟩ := step_running_isNext hs
  have heq : stepWith trunc s = t := by
    rcases step_next ht with ⟨hhalted, -⟩ | ⟨-, hpc, rfl⟩ | ⟨-, hpc, hb, rfl⟩ | ⟨-, hb, hpc, hexec⟩
    · exact absurd (hs.symm.trans hhalted) (by decide)
    · exact if_pos hpc
    · exact (if_neg (Nat.not_le.2 hpc)).trans (if_pos hb)
    · exact stepWith_eq_of_exec hpc hb (readPmem_fetch hpc).1 (readPmem_fetch hpc).2 hexec (hfix t ht)
  rw [ht, heq]

theorem fixesRegs_mod_of_fitsBits {m : Nat} {t : State} (h : FitsBits m t) : FixesRegs (fun v => v % 2 ^ m) t := by
  obtain ⟨ha, hb, hc⟩ := h
  exact ⟨Nat.mod_eq_of_lt ha, Nat.mod_eq_of_lt hb, Nat.mod_eq_of_lt hc⟩

/-- Settles O26: no step leaves the `m` bits, so the truncation of a width-`m` machine never changes a value. -/
theorem widthDoesNotMatter : Obligations.WidthDoesNotMatter := by
  intro m s hm hfits hs
  have hkeeps : ∀ t, step s = .next t → FitsBits m t := fun _ ht => fitsBits_of_step hm hfits ht
  exact ⟨step_eq_stepWith hs fun t ht => fixesRegs_mod_of_fitsBits (hkeeps t ht), hkeeps⟩

end Sys2Proof.Machine
end

section
/-! The counters of a run (10_state.md R26, R28, R30): `steps`, the length of `out`, `pc`. -/

namespace Sys2Proof.Machine

open Sys2Proof.Spec

/-! ### steps -/

/-- Settles O19: `steps` is 0 at launch, every instruction completes or faults, and the budget test goes before it. -/
theorem stepCounterCountsCompletedInstructions : Obligations.StepCounterCountsCompletedInstructions := by
  refine ⟨fun cfg args s h => ?_, fun i s hs => ?_, fun s hs hpc hb => ?_⟩
  · obtain ⟨-, -, -, rfl⟩ := launch_next h
    rfl
  · obtain ⟨t, ht⟩ := exec_isNext i s
    exact ⟨t, ht, hs ▸ exec_status_steps ht⟩
  · rw [step_running hs]
    exact runPass_budget hpc hb

/-! ### out -/

/-- An instruction emits at most one element for each step it counts. -/
theorem exec_out_length {i : Instr} {s t : State} (h : exec i s = .next t) :
    t.out.length + s.steps ≤ s.out.length + t.steps := by
  rcases exec_next h with ⟨r, v, -, rfl⟩ | ⟨o, e, -, rfl⟩ | ⟨o, -, -, rfl⟩ | ⟨o, -, -, -, -, rfl⟩ | ⟨r, -, rfl⟩
  · simp
  · simp; omega
  · simp
  · simp
  · simp

/-- The output is no longer than the steps taken, and those are within the launch's budget `m` (10_state.md R28). -/
structure WithinBudget (m : Nat) (s : State) : Prop where
  outWithinSteps : s.out.length ≤ s.steps
  stepsInBudget : s.steps ≤ s.maxSteps
  budget : s.maxSteps = m

theorem withinBudget_launched (p : List Element) (a b c m : Nat) : WithinBudget m (State.launched p a b c m) :=
  ⟨Nat.le_refl 0, Nat.zero_le m, rfl⟩

theorem withinBudget_of_step {m : Nat} {s t : State} (h : WithinBudget m s) (ht : step s = .next t) :
    WithinBudget m t := by
  rcases step_next ht with ⟨-, rfl⟩ | ⟨-, -, rfl⟩ | ⟨-, -, -, rfl⟩ | ⟨-, hb, hpc, hexec⟩
  · exact h
  · exact ⟨h.outWithinSteps, h.stepsInBudget, h.budget⟩
  · exact ⟨h.outWithinSteps, h.stepsInBudget, h.budget⟩
  · obtain ⟨hout, hsteps, hm⟩ := h
    have hmax := exec_maxSteps hexec
    have hlen := exec_out_length hexec
    have hcount : t.steps = s.steps + 1 ∨ t.steps = s.steps := (exec_status_steps hexec).imp And.right And.right
    exact ⟨by omega, by omega, by omega⟩

/-- Settles O23: the launch is within the budget, and every pass of the run loop keeps it so. -/
theorem outputNeverLongerThanSteps : Obligations.OutputNeverLongerThanSteps := by
  intro cfg args s fuel h
  obtain ⟨-, -, -, rfl⟩ := launch_next h
  obtain ⟨hout, hsteps, hm⟩ := runLoop_keeps (fun _ _ => withinBudget_of_step) fuel
    (withinBudget_launched (toElements args.program) args.a args.b args.c args.maxSteps)
  exact ⟨hout, hsteps.trans_eq hm⟩

/-! ### pc -/

/-- Where an instruction goes: it stays with a fault, goes on, or jumps to a target below `L`. -/
theorem exec_pc {i : Instr} {s t : State} (h : exec i s = .next t) :
    t.pc = s.pc ∨ t.pc = s.pc + 1 ∨ ∃ o : Element, o.toNat % 2 = 0 ∧ o.toNat < s.pmem.length ∧ t.pc = o.toNat / 2 := by
  rcases exec_next h with ⟨r, v, -, rfl⟩ | ⟨o, e, -, rfl⟩ | ⟨o, -, -, rfl⟩ | ⟨o, -, -, he, hl, rfl⟩ | ⟨r, -, rfl⟩
  · exact .inr (.inl (by simp))
  · exact .inr (.inl rfl)
  · exact .inr (.inl rfl)
  · exact .inr (.inr ⟨o, he, hl, rfl⟩)
  · exact .inl rfl

/-- A `jnz` that completes with A not 0 has jumped, to a legal target. -/
theorem exec_jnz_taken {o : Element} {s t : State} (ha : s.a ≠ 0) (h : exec (.jnz o) s = .next t)
    (ht : t.status = .running) : o.toNat % 2 = 0 ∧ o.toNat < s.pmem.length ∧ t.pc = o.toNat / 2 := by
  rcases execJnz_next h with ⟨hz, -⟩ | ⟨-, he, hl, rfl⟩ | ⟨-, -, rfl⟩ | ⟨-, -, -, rfl⟩
  · exact absurd hz ha
  · exact ⟨he, hl, rfl⟩
  · simp at ht
  · simp at ht

/-- A legal jump target is the index of an instruction: `L` is even. -/
theorem half_lt_half_length {s : State} (hwf : Memory.wf s.pmem = true) {n : Nat} (hn : n % 2 = 0)
    (hl : n < s.pmem.length) : n / 2 < s.pmem.length / 2 := by
  have heven : s.pmem.length % 2 = 0 := by simpa [Memory.wf] using hwf
  omega

/-- Where a step goes: it leaves `pc`, or `pc` was below `N` and goes on by one, or a jump lands below `N`. -/
theorem step_pc {s t : State} (hwf : Memory.wf s.pmem = true) (h : step s = .next t) :
    t.pc = s.pc ∨ (s.pc < s.pmem.length / 2 ∧ (t.pc = s.pc + 1 ∨ t.pc < s.pmem.length / 2)) := by
  rcases step_next h with ⟨-, rfl⟩ | ⟨-, -, rfl⟩ | ⟨-, -, -, rfl⟩ | ⟨-, -, hpc, hexec⟩
  · exact .inl rfl
  · exact .inl rfl
  · exact .inl rfl
  · rcases exec_pc hexec with hstay | hnext | ⟨o, he, hl, hjump⟩
    · exact .inl hstay
    · exact .inr ⟨hpc, .inl hnext⟩
    · exact .inr ⟨hpc, .inr (hjump ▸ half_lt_half_length hwf he hl)⟩

/-- Settles O24: by where a step goes, and by the check of a taken jump's target. -/
theorem pcStaysInRange : Obligations.PcStaysInRange := by
  intro s t hinv ht
  have hwf := hinv.storeWf
  have hrange : s.pc ≤ s.pmem.length / 2 := hinv.pcInRange
  have hmove := step_pc hwf ht
  rw [step_pmem ht]
  refine ⟨by omega, by omega, by omega, fun o u _ ha hu hrun => ?_⟩
  obtain ⟨he, hl, hpc⟩ := exec_jnz_taken ha hu hrun
  rw [exec_pmem hu, hpc]
  exact ⟨half_lt_half_length hwf he hl, by have := o.isLt; omega⟩

end Sys2Proof.Machine
end

section
/-! The registers of each instruction (10_state.md R22): which one it writes, and which it reads. -/

namespace Sys2Proof.Machine

open Sys2Proof.Spec

/-! ### Writes -/

theorem destination_eq_writes (i : Instr) : destination i = writes i := by
  cases i <;> rfl

theorem regOf_eq_readReg (s : State) (r : Reg) : regOf s r = readReg s r := by
  cases r <;> rfl

theorem readReg_completeNext (s : State) (r : Reg) : readReg (completeNext s) r = readReg s r := by
  cases r <;> rfl

/-- A register that the table does not give an instruction to write keeps its value. -/
theorem exec_regOf_of_not_written {i : Instr} {s t : State} (h : exec i s = .next t) {r : Reg}
    (hr : writes i ≠ some r) : regOf t r = regOf s r := by
  rcases exec_next h with ⟨q, v, hq, rfl⟩ | ⟨o, e, -, rfl⟩ | ⟨o, -, -, rfl⟩ | ⟨o, -, -, -, -, rfl⟩ | ⟨q, -, rfl⟩
  · have hne : r ≠ q := fun heq => hr (by rw [← destination_eq_writes, hq, heq])
    rw [regOf_eq_readReg, regOf_eq_readReg, readReg_completeNext, readReg_writeReg_of_ne s v hne]
  all_goals cases r <;> rfl

/-! ### Reads -/

theorem combo_congr {s s' : State} {o : Element} (h : ∀ r ∈ reads.comboReads o, regOf s' r = regOf s r) :
    combo s' o = combo s o := by
  rcases element_cases o with rfl | rfl | rfl | rfl | rfl | rfl | rfl | rfl
  · rfl
  · rfl
  · rfl
  · rfl
  · exact congrArg some (h .A (by decide))
  · exact congrArg some (h .B (by decide))
  · exact congrArg some (h .C (by decide))
  · rfl

/-- What the instruction `i` does from `s` to `t` and from `s'` to `t'` is alike: it completes in both or in neither,
writes the same value, emits the same elements and moves `pc` alike. -/
structure Alike (i : Instr) (s s' t t' : State) : Prop where
  completes : t.steps = s.steps + 1 ↔ t'.steps = s'.steps + 1
  writesSame : t.steps = s.steps + 1 → ∀ r, writes i = some r → regOf t' r = regOf t r
  emitsSame : ∃ emitted : List Element, t.out = s.out ++ emitted ∧ t'.out = s'.out ++ emitted
  movesAlike : (t.pc = s.pc ∧ t'.pc = s'.pc) ∨ (t.pc = s.pc + 1 ∧ t'.pc = s'.pc + 1) ∨ t.pc = t'.pc

theorem alike_fault (i : Instr) (s s' : State) (reason : Reason) :
    Alike i s s' (raiseInvalidOperand s i reason) (raiseInvalidOperand s' i reason) where
  completes := by simp
  writesSame h := by simp at h
  emitsSame := ⟨[], by simp⟩
  movesAlike := .inl ⟨rfl, rfl⟩

theorem alike_write {i : Instr} {q : Reg} (hq : writes i = some q) (s s' : State) (v : Nat) :
    Alike i s s' (completeNext (writeReg s q v)) (completeNext (writeReg s' q v)) where
  completes := by simp
  writesSame _ r hr := by
    obtain rfl : q = r := Option.some.inj (hq.symm.trans hr)
    simp [regOf_eq_readReg, readReg_completeNext]
  emitsSame := ⟨[], by simp⟩
  movesAlike := .inr (.inl (by simp))

theorem alike_emit (o : Element) (s s' : State) (e : Element) :
    Alike (.out o) s s' (completeNext (emit s e)) (completeNext (emit s' e)) where
  completes := by simp
  writesSame _ _ hr := nomatch hr
  emitsSame := ⟨[e], rfl, rfl⟩
  movesAlike := .inr (.inl ⟨rfl, rfl⟩)

theorem alike_goOn (o : Element) (s s' : State) : Alike (.jnz o) s s' (completeNext s) (completeNext s') where
  completes := by simp
  writesSame _ _ hr := nomatch hr
  emitsSame := ⟨[], by simp⟩
  movesAlike := .inr (.inl ⟨rfl, rfl⟩)

theorem alike_jump (o : Element) (s s' : State) (n : Nat) :
    Alike (.jnz o) s s' (completeAt s n) (completeAt s' n) where
  completes := by simp
  writesSame _ _ hr := nomatch hr
  emitsSame := ⟨[], by simp⟩
  movesAlike := .inr (.inr rfl)

/-- Two combo instructions alike once their operand is resolved are alike: the operand is the same, or reserved in both. -/
theorem alike_withCombo {i : Instr} {s s' t t' : State} {k k' : Nat → State}
    (hcombo : combo s' i.operand = combo s i.operand) (h : withCombo i s k = .next t)
    (h' : withCombo i s' k' = .next t') (hk : ∀ v, Alike i s s' (k v) (k' v)) : Alike i s s' t t' := by
  unfold withCombo at h h'
  rw [hcombo] at h'
  cases hc : combo s i.operand with
  | none =>
    rw [hc] at h h'
    cases h
    cases h'
    exact alike_fault i s s' .combo7
  | some v =>
    rw [hc] at h h'
    cases h
    cases h'
    exact hk v

theorem alike_divideInto {dest : Reg} {i : Instr} {s s' t t' : State} (hw : writes i = some dest)
    (ha : s'.a = s.a) (hcombo : combo s' i.operand = combo s i.operand) (h : divideInto dest i s = .next t)
    (h' : divideInto dest i s' = .next t') : Alike i s s' t t' := by
  refine alike_withCombo hcombo h h' fun k => ?_
  rw [readReg_A, readReg_A, ha]
  exact alike_write hw s s' _

theorem alike_execJnz {o : Element} {s s' t t' : State} (ha : s'.a = s.a) (hl : s'.pmem.length = s.pmem.length)
    (h : execJnz o s = .next t) (h' : execJnz o s' = .next t') : Alike (.jnz o) s s' t t' := by
  have htaken : jumpTaken s' = jumpTaken s := by rw [jumpTaken, jumpTaken, readReg_A, readReg_A, ha]
  have hfault : jumpFault s' (literal o) = jumpFault s (literal o) := by
    rw [jumpFault, jumpFault, progLen, progLen, hl]
  unfold execJnz at h h'
  rw [htaken, hfault] at h'
  by_cases hj : jumpTaken s = true
  · rw [if_pos hj] at h h'
    cases hf : jumpFault s (literal o) with
    | none =>
      rw [hf] at h h'
      cases h
      cases h'
      exact alike_jump o s s' _
    | some reason =>
      rw [hf] at h h'
      cases h
      cases h'
      exact alike_fault (.jnz o) s s' reason
  · rw [if_neg hj] at h h'
    cases h
    cases h'
    exact alike_goOn o s s'

/-- What an instruction does depends on `L` and on the registers of the table alone. -/
theorem alike_exec {i : Instr} {s s' t t' : State} (hl : s'.pmem.length = s.pmem.length)
    (hreads : ∀ r ∈ reads i, regOf s' r = regOf s r) (h : exec i s = .next t) (h' : exec i s' = .next t') :
    Alike i s s' t t' := by
  cases i with
  | adv o =>
    obtain ⟨ha, hc⟩ := List.forall_mem_cons.1 hreads
    exact alike_divideInto rfl ha (combo_congr hc) h h'
  | bdv o =>
    obtain ⟨ha, hc⟩ := List.forall_mem_cons.1 hreads
    exact alike_divideInto rfl ha (combo_congr hc) h h'
  | cdv o =>
    obtain ⟨ha, hc⟩ := List.forall_mem_cons.1 hreads
    exact alike_divideInto rfl ha (combo_congr hc) h h'
  | bst o => exact alike_withCombo (combo_congr hreads) h h' fun v => alike_write rfl s s' _
  | out o => exact alike_withCombo (combo_congr hreads) h h' fun v => alike_emit o s s' _
  | bxl o =>
    have hb : s'.b = s.b := hreads .B (by simp [reads])
    rw [exec, execBxl_eq] at h h'
    cases h
    cases h'
    rw [hb]
    exact alike_write rfl s s' _
  | bxc o =>
    have hb : s'.b = s.b := hreads .B (by simp [reads])
    have hc : s'.c = s.c := hreads .C (by simp [reads])
    rw [exec, execBxc_eq] at h h'
    cases h
    cases h'
    rw [hb, hc]
    exact alike_write rfl s s' _
  | jnz o => exact alike_execJnz (hreads .A (by simp [reads])) hl h h'

/-- Settles O56: a register that is not written stays, and two states that agree on what is read act alike. -/
theorem instructionsReadAndWriteTheirRegisters : Obligations.InstructionsReadAndWriteTheirRegisters := by
  refine ⟨fun i s t h r hr => exec_regOf_of_not_written h hr, fun i s s' t t' hl hreads h h' => ?_⟩
  obtain ⟨hsteps, hwrites, hout, hpc⟩ := alike_exec hl hreads h h'
  exact ⟨hsteps, hwrites, hout, hpc⟩

end Sys2Proof.Machine
end

section
/-! The program store (20_memory.md R50, R51): the launch writes it with the program supplied, and nothing else writes it. -/

namespace Sys2Proof.Machine

/-- What the loader accepts (30_encoding.md R73), said of the length and of each member. -/
theorem programValid_iff (p : List Nat) : programValid p = true ↔ p.length % 2 = 0 ∧ ∀ e ∈ p, e ≤ 7 := by
  simp [programValid, lengthEven, elementsInRange]

theorem toNat_ofNat_element {e : Nat} (h : e ≤ 7) : (BitVec.ofNat 3 e).toNat = e :=
  (BitVec.toNat_ofNat e 3).trans (Nat.mod_eq_of_lt (Nat.lt_succ_of_le h))

/-- Taking the members of a valid program as elements loses none of their values. -/
theorem toElements_map_toNat {p : List Nat} (h : programValid p = true) : (toElements p).map BitVec.toNat = p := by
  obtain ⟨-, hrange⟩ := (programValid_iff p).1 h
  rw [toElements, List.map_map]
  calc p.map (BitVec.toNat ∘ BitVec.ofNat 3)
      _ = p.map id := List.map_congr_left fun e he => toNat_ofNat_element (hrange e he)
      _ = p := List.map_id p

/-- The store of a launched state reads as the valid program it was launched with, and as nothing beyond its end. -/
theorem readPmem_launched {p : List Nat} (h : programValid p = true) (a b c m e : Nat) :
    (readPmem (State.launched (toElements p) a b c m) e).map BitVec.toNat = p[e]? := by
  rw [readPmem, launched_pmem, ← List.getElem?_map, toElements_map_toNat h]

theorem step_maxSteps {s t : State} (h : step s = .next t) : t.maxSteps = s.maxSteps := by
  rcases step_next h with ⟨-, rfl⟩ | ⟨-, -, rfl⟩ | ⟨-, -, -, rfl⟩ | ⟨-, -, hpc, hexec⟩
  · rfl
  · rfl
  · rfl
  · exact exec_maxSteps hexec

/-- Settles O21: a valid program is stored as it is, and no instruction and no pass of the run loop writes the store. -/
theorem programStoreIsImmutable : Obligations.ProgramStoreIsImmutable := by
  refine ⟨fun cfg args s h e => ?_, fun i s t h => ⟨exec_pmem h, exec_maxSteps h⟩,
    fun s t h => ⟨step_pmem h, step_maxSteps h⟩⟩
  obtain ⟨-, hvalid, -, rfl⟩ := launch_next h
  exact readPmem_launched hvalid args.a args.b args.c args.maxSteps e

end Sys2Proof.Machine
end

section
/-! The packed word and the two forms of a program (30_encoding.md R71, R72, R78). -/

namespace Sys2Proof

/-! ### The fields of a word as numbers -/

theorem opcodeField_toNat (w : InstrWord) : (opcodeField w).toNat = w.toNat / 8 := by
  revert w; decide

theorem operandField_toNat (w : InstrWord) : (operandField w).toNat = w.toNat % 8 := by
  revert w; decide

/-! ### The word form and the flat form -/

theorem wordForm_length (p : List Element) : (wordForm p).length = p.length / 2 := by
  induction p using flat_induction with
  | nil => simp [wordForm]
  | single x => simp [wordForm]
  | pair x y rest ih =>
    simp only [wordForm, List.length_cons, ih]
    omega

theorem flatForm_wordForm (p : List Element) : p.length % 2 = 0 → flatForm (wordForm p) = p := by
  induction p using flat_induction with
  | nil => exact fun _ => rfl
  | single x => exact fun h => absurd h (by simp)
  | pair x y rest ih =>
    intro h
    have heven : rest.length % 2 = 0 := (Nat.add_mod_right rest.length 2).symm.trans h
    simp [wordForm, flatForm, ih heven]

theorem wordForm_flatForm (ws : List InstrWord) : wordForm (flatForm ws) = ws := by
  induction ws with
  | nil => rfl
  | cons w ws ih => simp [flatForm, wordForm, ih]

/-- The fields of word `i` are the elements `2 * i` and `2 * i + 1`. -/
theorem getElem?_of_wordForm (p : List Element) : ∀ {i : Nat} {w : InstrWord}, (wordForm p)[i]? = some w →
    p[2 * i]? = some (opcodeField w) ∧ p[2 * i + 1]? = some (operandField w) := by
  induction p using flat_induction with
  | nil => exact nofun
  | single x => exact nofun
  | pair x y rest ih =>
    intro i w h
    cases i with
    | zero =>
      obtain rfl : packWord x y = w := Option.some.inj h
      simp
    | succ i => exact ih h

/-- Settles O5: word `i` packs the elements `2 * i` and `2 * i + 1`, which are its two fields. -/
theorem flatAndWordFormsAgree : Obligations.FlatAndWordFormsAgree := by
  refine ⟨fun p heven => ⟨wordForm_length p, flatForm_wordForm p heven, fun i w hw => ?_⟩, wordForm_flatForm⟩
  obtain ⟨hopcode, hoperand⟩ := getElem?_of_wordForm p hw
  refine ⟨opcodeField w, operandField w, hopcode, hoperand, ?_, opcodeField_toNat w, operandField_toNat w⟩
  rw [opcodeField_toNat, operandField_toNat]
  exact (Nat.div_add_mod' w.toNat 8).symm

/-! ### Decode by the opcode alone -/

/-- Settles O1: at each of the eight opcodes the decoder's match is decided, and its arm hands the operand on. -/
theorem decodeIsTotalByOpcode : Obligations.DecodeIsTotalByOpcode :=
  fun _ => ⟨rfl, rfl, rfl, rfl, rfl, rfl, rfl, rfl⟩

end Sys2Proof
end

section
/-! The loader (30_encoding.md R73, 60_exceptions.md R151): what a launch answers, and that `MalformedProgram` belongs to
it alone. -/

namespace Sys2Proof.Machine

open Sys2Proof.Spec

/-! ### What an implementation can be presented with -/

theorem holdsValue_iff (cfg : Config) (v : Nat) : cfg.holdsValue v = true ↔ ∀ w, cfg.W = some w → v < 2 ^ w := by
  cases h : cfg.W <;> simp [Config.holdsValue, h]

theorem holdsProgram_iff (cfg : Config) (n : Nat) : cfg.holdsProgram n = true ↔ ∀ m, cfg.LMAX = some m → n ≤ m := by
  cases h : cfg.LMAX <;> simp [Config.holdsProgram, h]

theorem registersPresentable_iff (cfg : Config) (args : LaunchArgs) :
    registersPresentable cfg args = true ↔ ∀ w, cfg.W = some w → args.a < 2 ^ w ∧ args.b < 2 ^ w ∧ args.c < 2 ^ w := by
  simp only [registersPresentable, Bool.and_eq_true, holdsValue_iff, forall_and, and_assoc]

/-- The model's two tests of a launch against the implementation are the spec's `Presentable`. -/
theorem presentable_iff (cfg : Config) (args : LaunchArgs) :
    Presentable cfg args ↔ registersPresentable cfg args = true ∧ cfg.holdsProgram args.program.length = true := by
  rw [registersPresentable_iff, holdsProgram_iff, Presentable]

/-! ### What a launch answers -/

theorem launch_malformed {cfg : Config} {args : LaunchArgs} (hregs : registersPresentable cfg args = true)
    (hbad : ¬ programValid args.program = true) : launch cfg args = .fault .malformedProgram := by
  simp [launch, hregs, hbad]

theorem launch_valid {cfg : Config} {args : LaunchArgs} (hregs : registersPresentable cfg args = true)
    (hvalid : programValid args.program = true) (hfits : cfg.holdsProgram args.program.length = true) :
    launch cfg args = .next (State.launched (toElements args.program) args.a args.b args.c args.maxSteps) := by
  simp [launch, hregs, hvalid, hfits]

theorem not_programValid_of_malformed {p : List Nat} (h : p.length % 2 = 1 ∨ ∃ e ∈ p, 7 < e) :
    ¬ programValid p = true := by
  intro hvalid
  obtain ⟨heven, hrange⟩ := (programValid_iff p).1 hvalid
  rcases h with hodd | ⟨e, he, hbig⟩
  · omega
  · exact absurd (hrange e he) (Nat.not_le.2 hbig)

/-! ### The causes of a run -/

/-- A step of a running machine enters `FAULT` by the budget or by an operand. -/
theorem step_fault_cause {s t : State} (hs : s.status = .running) (h : step s = .next t) (ht : t.status = .fault) :
    t.cause = some .stepBudgetExceeded ∨ t.cause = some .invalidOperand := by
  rcases step_next h with ⟨hhalted, -⟩ | ⟨-, -, rfl⟩ | ⟨-, -, -, rfl⟩ | ⟨-, -, hpc, hexec⟩
  · simp [hs] at hhalted
  · simp at ht
  · exact .inl rfl
  · obtain ⟨reason, -, rfl⟩ := exec_fault (by simp [hs]) hexec ht
    exact .inr rfl

/-- Settles O7: a presentable launch depends on `programValid` alone, a launch that creates a run fits the store, and a
step raises only the two other causes. -/
theorem loaderAcceptsExactlyValidPrograms : Obligations.LoaderAcceptsExactlyValidPrograms := by
  refine ⟨fun cfg args hpres => ?_, fun cfg args n s hmax hlong h => ?_, fun s t hs h ht hcause => ?_⟩
  · obtain ⟨hregs, hfits⟩ := (presentable_iff cfg args).1 hpres
    exact ⟨fun hbad => launch_malformed hregs (not_programValid_of_malformed hbad),
      fun hvalid => ⟨_, launch_valid hregs ((programValid_iff _).2 hvalid) hfits⟩⟩
  · obtain ⟨-, -, hfits, -⟩ := launch_next h
    exact absurd ((holdsProgram_iff cfg _).1 hfits n hmax) (Nat.not_le.2 hlong)
  · rcases step_fault_cause hs h ht with hbudget | hoperand
    · exact absurd (hbudget.symm.trans hcause) (by decide)
    · exact absurd (hoperand.symm.trans hcause) (by decide)

end Sys2Proof.Machine
end

section
/-! The execution cycle (40_execution_cycle.md R91 to R102): one pass of the run loop, the end of a run, and its result. -/

namespace Sys2Proof.Machine

open Sys2Proof.Spec

/-! ### One pass -/

/-- Settles O16: the spec's truncating `Step` is the model's step where the truncation changes no register, and `id`
changes none. -/
theorem stepIsTheSpecsStepFunction : Obligations.StepIsTheSpecsStepFunction :=
  fun _ hs => step_eq_stepWith hs fun _ _ => ⟨rfl, rfl, rfl⟩

/-- Settles O12: the fetched pair is what the store holds at `2 * pc` and `2 * pc + 1`, and the pass executes its
decoding. -/
theorem stepRunsTheDecodedInstruction : Obligations.StepRunsTheDecodedInstruction := by
  intro s hs hpc hb
  obtain ⟨hopcode, hoperand⟩ := readPmem_fetch hpc
  refine ⟨_, _, hopcode, hoperand, fun i hi => ?_⟩
  rw [step_running hs, runPass_exec hpc hb, hi]

/-- Settles O20: a fault leaves `pc`, and of the ways to complete only the jump of a taken `jnz` sets it to a target. -/
theorem defaultControlFlowAdvances : Obligations.DefaultControlFlowAdvances := by
  intro i s t hs h
  refine ⟨fun ht => ?_, fun ht hjnz => ?_, fun o hi ha => ?_⟩
  · obtain ⟨reason, -, rfl⟩ := exec_fault (by simp [hs]) h ht
    rfl
  · rcases exec_next h with ⟨r, v, -, rfl⟩ | ⟨o, e, -, rfl⟩ | ⟨o, hi, -, -⟩ | ⟨o, hi, -, -, -, -⟩ | ⟨reason, -, rfl⟩
    · simp
    · simp
    · exact absurd hi (hjnz o)
    · exact absurd hi (hjnz o)
    · exact absurd rfl ht
  · subst hi
    rcases execJnz_next h with ⟨-, rfl⟩ | ⟨hne, -⟩ | ⟨hne, -⟩ | ⟨hne, -⟩
    · rfl
    · exact absurd ha hne
    · exact absurd ha hne
    · exact absurd ha hne

/-! ### The halt test -/

theorem step_at_end {s : State} (hs : s.status = .running) (hpc : instrCount s ≤ s.pc) : step s = .next (halt s) :=
  (step_running hs).trans (runPass_at_end hpc)

/-- Only the halt test halts a running machine: an instruction leaves it running or faults. -/
theorem at_end_of_step_halted {s t : State} (hs : s.status = .running) (h : step s = .next t)
    (ht : t.status = .halted) : instrCount s ≤ s.pc := by
  rcases step_next h with ⟨hhalted, -⟩ | ⟨-, hpc, -⟩ | ⟨-, -, -, rfl⟩ | ⟨-, -, hpc, hexec⟩
  · simp [hs] at hhalted
  · exact hpc
  · simp at ht
  · rcases exec_status_steps hexec with ⟨hkept, -⟩ | ⟨hfault, -⟩
    · simp [hkept, hs] at ht
    · simp [hfault] at ht

/-- Settles O13: a jump lands below `N`, so that a step which moves `pc` to `N` has gone on by one. -/
theorem haltTestEndsTheRunNormally : Obligations.HaltTestEndsTheRunNormally := by
  intro s hs
  refine ⟨step_at_end hs, rfl, fun t => at_end_of_step_halted hs, fun hinv => ⟨?_, fun t h hN hmoved => ?_⟩⟩
  · have hrange : s.pc ≤ s.pmem.length / 2 := hinv.pcInRange
    omega
  · have hmove := step_pc hinv.storeWf h
    omega

/-! ### The run loop ends -/

/-- A pass of a running machine ends the run, or completes one instruction within the budget. -/
theorem step_over_or_counts {s t : State} (hs : s.status = .running) (h : step s = .next t) :
    RunOver t ∨ (s.steps ≠ s.maxSteps ∧ t.steps = s.steps + 1) := by
  rcases step_next h with ⟨hhalted, -⟩ | ⟨-, -, rfl⟩ | ⟨-, -, -, rfl⟩ | ⟨-, hb, hpc, hexec⟩
  · simp [hs] at hhalted
  · exact .inl (.inl rfl)
  · exact .inl (.inr rfl)
  · rcases exec_status_steps hexec with ⟨-, hcount⟩ | ⟨hfault, -⟩
    · exact .inr ⟨hb, hcount⟩
    · exact .inl (.inr hfault)

theorem runOver_iff (s : State) : RunOver s ↔ s.status ≠ .running := by
  unfold RunOver
  cases s.status <;> simp

theorem runLoop_of_over {s : State} (h : RunOver s) (fuel : Nat) : runLoop fuel s = s :=
  runLoop_of_not_running ((runOver_iff s).1 h) fuel

/-- A pass for each step left in the budget, and one more, end the run (40_execution_cycle.md R101). -/
theorem runLoop_over {m fuel : Nat} {s : State} (h : WithinBudget m s) (hfuel : m < s.steps + fuel) :
    RunOver (runLoop fuel s) := by
  induction fuel generalizing s with
  | zero =>
    obtain ⟨-, hsteps, hm⟩ := h
    omega
  | succ fuel ih =>
    by_cases hs : s.status = .running
    · obtain ⟨t, ht⟩ := step_running_isNext hs
      rw [runLoop_step hs ht]
      rcases step_over_or_counts hs ht with hover | ⟨-, hcount⟩
      · rwa [runLoop_of_over hover]
      · exact ih (withinBudget_of_step h ht) (by omega)
    · have hover := (runOver_iff s).2 hs
      rwa [runLoop_of_over hover]

/-- The fuel may be spent in two parts. -/
theorem runLoop_add (n k : Nat) (s : State) : runLoop (n + k) s = runLoop k (runLoop n s) := by
  induction n generalizing s with
  | zero => rw [Nat.zero_add, runLoop_zero]
  | succ n ih =>
    by_cases hs : s.status = .running
    · obtain ⟨t, ht⟩ := step_running_isNext hs
      rw [Nat.succ_add, runLoop_step hs ht, runLoop_step hs ht, ih]
    · simp only [runLoop_of_not_running hs]

theorem withinBudget_of_launch {cfg : Config} {args : LaunchArgs} {s : State} (h : launch cfg args = .next s) :
    WithinBudget args.maxSteps s := by
  obtain ⟨-, -, -, rfl⟩ := launch_next h
  exact withinBudget_launched ..

/-- Settles O28: the budget bounds the passes, and a run that is over stays as it is whatever fuel is left. -/
theorem runsAlwaysEnd : Obligations.RunsAlwaysEnd := by
  intro cfg args s h
  have hover : RunOver (runLoop (args.maxSteps + 1) s) := runLoop_over (withinBudget_of_launch h) (by omega)
  obtain ⟨-, hsteps⟩ := outputNeverLongerThanSteps cfg args s (args.maxSteps + 1) h
  refine ⟨hover, hsteps, fun k => ?_⟩
  rw [runLoop_add, runLoop_of_over hover]

/-! ### The result -/

theorem runToEnd_over {m : Nat} {s : State} (h : WithinBudget m s) : RunOver (runToEnd s) := by
  refine runLoop_over h ?_
  obtain ⟨-, hsteps, hm⟩ := h
  omega

/-- A machine in `FAULT` has recorded a cause (60_exceptions.md R159). -/
def FaultHasCause (s : State) : Prop := s.status = .fault → ∃ f, s.cause = some f

theorem faultHasCause_of_step {s t : State} (h : FaultHasCause s) (ht : step s = .next t) : FaultHasCause t := by
  by_cases hs : s.status = .running
  · intro hfault
    exact (step_fault_cause hs ht hfault).elim (fun hc => ⟨_, hc⟩) (fun hc => ⟨_, hc⟩)
  · rcases step_next ht with ⟨-, rfl⟩ | ⟨hrun, -⟩ | ⟨hrun, -⟩ | ⟨hrun, -⟩
    · exact h
    · exact absurd hrun hs
    · exact absurd hrun hs
    · exact absurd hrun hs

theorem faultHasCause_of_launch {cfg : Config} {args : LaunchArgs} {s : State} (h : launch cfg args = .next s) :
    FaultHasCause s := by
  obtain ⟨-, -, -, rfl⟩ := launch_next h
  exact nofun

theorem result_halted {s : State} (h : s.status = .halted) : result s = some (.ok s.out) := by
  simp [result, h]

theorem result_fault {s : State} {f : Fault} (h : s.status = .fault) (hf : s.cause = some f) :
    result s = some (.err f) := by
  simp [result, h, hf]

theorem run_of_launch {cfg : Config} {args : LaunchArgs} {s : State} (h : launch cfg args = .next s) :
    run cfg args = result (runToEnd s) := by
  simp [run, h]

/-- Settles O29: the run loop ends the run, and what ends it in `FAULT` has recorded a cause. -/
theorem runYieldsOkOrErr : Obligations.RunYieldsOkOrErr := by
  intro cfg args s h
  rw [run_of_launch h]
  rcases runToEnd_over (withinBudget_of_launch h) with hhalted | hfault
  · exact .inl ⟨hhalted, result_halted hhalted⟩
  · have hcaused : FaultHasCause (runToEnd s) :=
      runLoop_keeps (fun _ _ => faultHasCause_of_step) _ (faultHasCause_of_launch h)
    obtain ⟨f, hf⟩ := hcaused hfault
    exact .inr ⟨hfault, f, hf, result_fault hfault hf⟩

/-! ### The empty program -/

/-- A run that starts at the end of its program ends with the halt test, and takes no step. -/
theorem runToEnd_at_end {s : State} (hs : s.status = .running) (hpc : instrCount s ≤ s.pc) : runToEnd s = halt s := by
  rw [runToEnd, runLoop_step hs (step_at_end hs hpc)]
  exact runLoop_of_over (.inl rfl) _

theorem runToEnd_launched_nil (a b c m : Nat) :
    runToEnd (State.launched [] a b c m) = halt (State.launched [] a b c m) :=
  runToEnd_at_end rfl (by simp [instrCount, progLen])

/-- Settles O30: the empty program is valid, and its launch is at the end of it, `pc = N = 0`. -/
theorem emptyProgramHaltsAtOnce : Obligations.EmptyProgramHaltsAtOnce := by
  intro cfg args hpres hempty
  obtain ⟨hregs, hfits⟩ := (presentable_iff cfg args).1 hpres
  have hvalid : programValid args.program = true := by rw [hempty]; rfl
  have hlaunch := launch_valid hregs hvalid hfits
  rw [hempty, toElements, List.map_nil] at hlaunch
  refine ⟨_, hlaunch, ?_⟩
  rw [run_of_launch hlaunch, runToEnd_launched_nil]
  exact ⟨rfl, rfl, rfl, rfl, rfl, rfl, rfl⟩

end Sys2Proof.Machine
end

section
/-! The divide family (41_divide_shift.md R110 to R115): what `adv`, `bdv` and `cdv` write, and the laws of the shift. -/

namespace Sys2Proof.Machine

open Sys2Proof.Spec

/-! ### The operation the family shares -/

/-- The spec's relation of R95 is the model's resolution of a combo operand. -/
theorem comboValue_iff (s : State) (o : Element) (v : Nat) : ComboValue s o v ↔ combo s o = some v :=
  (combo_eq_some_iff s o v).symm

/-- The shift amount and A are those of the state before the write. -/
theorem divideInto_of_comboValue {dest : Reg} {i : Instr} {s : State} {k : Nat} (h : ComboValue s i.operand k) :
    divideInto dest i s = .next (completeNext (writeReg s dest (s.a / 2 ^ k))) := by
  rw [← lsr_eq_div]
  exact withCombo_of_some ((comboValue_iff s i.operand k).1 h)

theorem divideInto_of_reserved {dest : Reg} {i : Instr} {s : State} (h : i.operand = 7#3) :
    divideInto dest i s = .next (operandFault s .combo7 (opcodeOf i) 7#3) := by
  rw [← h]
  exact withCombo_of_reserved h

/-! ### The three instructions -/

/-- Settles O36: opcode 0 is the shared division with destination A. -/
theorem advDividesAIntoA : Obligations.AdvDividesAIntoA := by
  intro s o
  obtain ⟨hdecode, -⟩ := decodeIsTotalByOpcode o
  exact ⟨hdecode, fun k => divideInto_of_comboValue (dest := .A) (i := .adv o),
    divideInto_of_reserved (dest := .A) (i := .adv o)⟩

/-- Settles O37: opcode 6 is the shared division with destination B. -/
theorem bdvDividesAIntoB : Obligations.BdvDividesAIntoB := by
  intro s o
  obtain ⟨-, -, -, -, -, -, hdecode, -⟩ := decodeIsTotalByOpcode o
  exact ⟨hdecode, fun k => divideInto_of_comboValue (dest := .B) (i := .bdv o),
    divideInto_of_reserved (dest := .B) (i := .bdv o)⟩

/-- In the table of 10_state.md R22 only `cdv` has C to write. -/
theorem eq_cdv_of_writes_C {i : Instr} (h : writes i = some .C) : ∃ o, i = .cdv o := by
  cases i with
  | cdv o => exact ⟨o, rfl⟩
  | _ => cases h

/-- Settles O38: opcode 7 is the shared division with destination C, and a register that is not written stays. -/
theorem cdvDividesAIntoC : Obligations.CdvDividesAIntoC := by
  refine ⟨fun s o => ?_, fun i s t h hchanged => ?_⟩
  · obtain ⟨-, -, -, -, -, -, -, hdecode⟩ := decodeIsTotalByOpcode o
    exact ⟨hdecode, fun k => divideInto_of_comboValue (dest := .C) (i := .cdv o),
      divideInto_of_reserved (dest := .C) (i := .cdv o)⟩
  · by_cases hw : writes i = some .C
    · exact eq_cdv_of_writes_C hw
    · exact absurd (exec_regOf_of_not_written h hw) hchanged

/-! ### The laws of the shift -/

@[simp] theorem lsr_zero (a : Nat) : lsr a 0 = a := by
  rw [lsr_eq_div, Nat.pow_zero, Nat.div_one]

theorem lsr_lsr (a j k : Nat) : lsr (lsr a j) k = lsr a (j + k) := by
  simp only [lsr_eq_div, Nat.div_div_eq_div_mul, Nat.pow_add]

theorem lsr_eq_zero_iff (a k : Nat) : lsr a k = 0 ↔ a < 2 ^ k := by
  rw [lsr_eq_div, Nat.div_eq_zero_iff_lt (Nat.two_pow_pos k)]

theorem testBit_lsr (a k j : Nat) : (lsr a k).testBit j = a.testBit (k + j) := by
  rw [lsr_eq_div, ← Nat.shiftRight_eq_div_pow, Nat.testBit_shiftRight]

/-- The low three bits of the shifted value are the bits `k` to `k + 2` of `a`. -/
theorem testBit_lsr_mod_eight (a k : Nat) {j : Nat} (hj : j < 3) :
    (lsr a k % 8).testBit j = a.testBit (k + j) := by
  have hlow : (lsr a k % 2 ^ 3).testBit j = (lsr a k).testBit j := by
    rw [Nat.testBit_mod_two_pow, decide_eq_true hj, Bool.true_and]
  exact hlow.trans (testBit_lsr a k j)

/-- A shift by three takes off the last octal digit. -/
theorem eq_lsr_three_mul_eight_add (a : Nat) : a = lsr a 3 * 8 + a % 8 := by
  rw [lsr_eq_div]
  exact (Nat.div_add_mod' a 8).symm

/-- Settles O41: `lsr` is the exact quotient by a power of two, so that its laws are those of division. -/
theorem divisionLaws : Obligations.DivisionLaws :=
  ⟨lsr_zero, lsr_lsr, lsr_le, lsr_eq_zero_iff, fun a k _ => testBit_lsr_mod_eight a k, eq_lsr_three_mul_eight_add⟩

end Sys2Proof.Machine
end

section
/-! The bitwise family (42_bitwise.md R120 to R123): what `bxl`, `bst` and `bxc` write, and the laws of the
exclusive-or. -/

namespace Sys2Proof.Machine

open Sys2Proof.Spec

/-! ### The laws of the exclusive-or -/

theorem bitXor_comm (u v : Nat) : bitXor u v = bitXor v u := Nat.xor_comm u v

theorem bitXor_assoc (u v w : Nat) : bitXor (bitXor u v) w = bitXor u (bitXor v w) := Nat.xor_assoc u v w

@[simp] theorem bitXor_zero (v : Nat) : bitXor v 0 = v := Nat.xor_zero v

@[simp] theorem bitXor_self (v : Nat) : bitXor v v = 0 := Nat.xor_self v

theorem bitXor_mod_eight (b c : Nat) : bitXor b c % 8 = bitXor (b % 8) (c % 8) :=
  Nat.xor_mod_two_pow (n := 3)

theorem bitXor_div_eight (b c : Nat) : bitXor b c / 8 = bitXor (b / 8) (c / 8) :=
  Nat.xor_div_two_pow (n := 3)

/-- A literal lies in the low three bits, so that reducing it changes nothing. -/
theorem bitXor_literal_mod_eight (b : Nat) (o : Element) : bitXor b o.toNat % 8 = bitXor (b % 8) o.toNat := by
  rw [bitXor_mod_eight, Nat.mod_eq_of_lt o.isLt]

/-- A literal is zero-extended: nothing above the low three bits changes (42_bitwise.md R120). -/
theorem bitXor_literal_div_eight (b : Nat) (o : Element) : bitXor b o.toNat / 8 = b / 8 := by
  rw [bitXor_div_eight, Nat.div_eq_of_lt o.isLt, bitXor_zero]

/-! ### The three instructions -/

theorem execBst_of_comboValue {s : State} {o : Element} {v : Nat} (h : ComboValue s o v) :
    execBst o s = .next (completeNext (writeReg s .B (v % 8))) := by
  rw [← zext_low3]
  exact withCombo_of_some (i := .bst o) ((comboValue_iff s o v).1 h)

theorem execBst_of_reserved {s : State} {o : Element} (h : o = 7#3) :
    execBst o s = .next (operandFault s .combo7 2#3 7#3) := by
  subst h
  exact withCombo_of_reserved (i := .bst 7#3) rfl

/-- Settles O43: opcode 1 writes the exclusive-or, and a literal reaches the low three bits only. -/
theorem bxlXorsALiteral : Obligations.BxlXorsALiteral := by
  intro s o
  obtain ⟨-, hdecode, -⟩ := decodeIsTotalByOpcode o
  exact ⟨hdecode, execBxl_eq o s, bitXor_literal_div_eight s.b o⟩

/-- Settles O44: the resolved operand is reduced before the write, and operand 7 does not resolve. -/
theorem bstStoresModEight : Obligations.BstStoresModEight := by
  intro s o
  obtain ⟨-, -, hdecode, -⟩ := decodeIsTotalByOpcode o
  exact ⟨hdecode, fun _ => execBst_of_comboValue, execBst_of_reserved⟩

/-- Settles O45: opcode 4 writes the exclusive-or of B and C and never resolves its operand. -/
theorem bxcXorsCAndIgnoresItsOperand : Obligations.BxcXorsCAndIgnoresItsOperand := by
  intro s o
  obtain ⟨-, -, -, -, hdecode, -⟩ := decodeIsTotalByOpcode o
  exact ⟨hdecode, execBxc_eq o s⟩

/-! ### What the family shares -/

/-- Everything an instruction of the family can do: it completes with B written, by a value no wider than B, C or three
bits, or it is the reserved `bst` and takes the fault. -/
theorem exec_bitwise_next {i : Instr} {o : Element} {s t : State} (hi : i = .bxl o ∨ i = .bst o ∨ i = .bxc o)
    (h : exec i s = .next t) :
    (∃ v, (∀ m, 3 ≤ m → s.b < 2 ^ m → s.c < 2 ^ m → v < 2 ^ m) ∧ t = completeNext (writeReg s .B v)) ∨
      (i = .bst o ∧ o = 7#3 ∧ t = raiseInvalidOperand s i .combo7) := by
  have hfits {m : Nat} (hm : 3 ≤ m) {v : Nat} (hv : v < 8) : v < 2 ^ m := Nat.lt_of_lt_of_le hv (eight_le_two_pow hm)
  rcases hi with rfl | rfl | rfl
  · cases h
    exact .inl ⟨_, fun m hm hb _ => bitXor_lt hb (hfits hm o.isLt), rfl⟩
  · rcases execBst_next h with ⟨v, -, rfl⟩ | ⟨h7, rfl⟩
    · exact .inl ⟨_, fun m hm _ _ => hfits hm (zext_lt _), rfl⟩
    · exact .inr ⟨rfl, h7, rfl⟩
  · cases h
    exact .inl ⟨_, fun m _ hb hc => bitXor_lt hb hc, rfl⟩

/-- Settles O46: the laws of the two operations, and for the family the two things an instruction of it can do. -/
theorem bitwiseFamilyLaws : Obligations.BitwiseFamilyLaws := by
  refine ⟨fun u v w => ⟨bitXor_comm u v, bitXor_assoc u v w, bitXor_zero v, bitXor_self v⟩,
    fun b o => ⟨bitXor_literal_mod_eight b o, bitXor_literal_div_eight b o⟩, bitXor_mod_eight, zext_low3,
    fun i o s t m hi h => ?_⟩
  rcases exec_bitwise_next hi h with ⟨v, hv, rfl⟩ | ⟨-, -, rfl⟩
  · exact ⟨rfl, rfl, .inl rfl, hv m⟩
  · exact ⟨rfl, rfl, .inr ⟨rfl, rfl⟩, fun _ hb _ => hb⟩

end Sys2Proof.Machine
end

section
/-! The jump (43_control_jnz.md R130 to R132): what `jnz` does in each of its four cases. -/

namespace Sys2Proof.Machine

open Sys2Proof.Spec

/-! ### The check of the target -/

theorem jumpFault_of_odd {s : State} {t : Nat} (hodd : t % 2 = 1) : jumpFault s t = some .jumpOdd :=
  if_pos hodd

theorem jumpFault_of_even_of_length_le {s : State} {t : Nat} (heven : t % 2 = 0) (hl : s.pmem.length ≤ t) :
    jumpFault s t = some .jumpOutOfBounds := by
  have hnotOdd : ¬ t % 2 = 1 := by omega
  exact (if_neg hnotOdd).trans (if_pos hl)

/-! ### The instruction -/

theorem execJnz_of_a_eq_zero {s : State} {o : Element} (ha : s.a = 0) : execJnz o s = .next (completeNext s) := by
  have hnotTaken : ¬ jumpTaken s = true := fun h => (jumpTaken_iff s).1 h ha
  exact if_neg hnotTaken

theorem execJnz_of_legal {s : State} {o : Element} (ha : s.a ≠ 0) (heven : o.toNat % 2 = 0)
    (hl : o.toNat < s.pmem.length) : execJnz o s = .next (completeAt s (o.toNat / 2)) := by
  have hlegal : jumpFault s (literal o) = none := (jumpFault_eq_none_iff s _).2 ⟨heven, hl⟩
  rw [execJnz, if_pos ((jumpTaken_iff s).2 ha), hlegal, literal]

theorem execJnz_of_jumpFault {s : State} {o : Element} {reason : Reason} (ha : s.a ≠ 0)
    (hf : jumpFault s o.toNat = some reason) : execJnz o s = .next (operandFault s reason 3#3 o) := by
  rw [execJnz, if_pos ((jumpTaken_iff s).2 ha), literal, hf]
  rfl

/-- An even element is twice the instruction index it names, and no index named is above 3 (43_control_jnz.md R130). -/
theorem half_of_even_element {o : Element} (heven : o.toNat % 2 = 0) :
    2 * (o.toNat / 2) = o.toNat ∧ o.toNat / 2 ≤ 3 := by
  have hlt : o.toNat < 8 := o.isLt
  omega

/-- Settles O48: opcode 3 goes on when A is 0; otherwise the target is legal, odd, or even and not below `L`. -/
theorem jnzJumpsWhenAIsNotZero : Obligations.JnzJumpsWhenAIsNotZero := by
  intro s o
  obtain ⟨-, -, -, hdecode, -⟩ := decodeIsTotalByOpcode o
  refine ⟨hdecode, execJnz_of_a_eq_zero, fun ha heven hl => ?legal, fun ha hodd => ?odd, fun ha heven hl => ?outOfBounds⟩
  case legal => exact ⟨execJnz_of_legal ha heven hl, half_of_even_element heven⟩
  case odd => exact execJnz_of_jumpFault ha (jumpFault_of_odd hodd)
  case outOfBounds => exact execJnz_of_jumpFault ha (jumpFault_of_even_of_length_le heven hl)

end Sys2Proof.Machine
end

section
/-! Output (44_output.md R140): what `out` emits, and that the reserved operand faults before anything is emitted. -/

namespace Sys2Proof.Machine

open Sys2Proof.Spec

theorem execOut_of_comboValue {s : State} {o : Element} {v : Nat} (h : ComboValue s o v) :
    execOut o s = .next (completeNext (emit s (low3 v))) :=
  withCombo_of_some (i := .out o) ((comboValue_iff s o v).1 h)

theorem execOut_of_reserved {s : State} {o : Element} (h : o = 7#3) :
    execOut o s = .next (operandFault s .combo7 5#3 7#3) := by
  subst h
  exact withCombo_of_reserved (i := .out 7#3) rfl

/-- Settles O52: the element emitted is the low three bits of the resolved operand, and operand 7 does not resolve. -/
theorem outEmitsModEight : Obligations.OutEmitsModEight := by
  intro s o
  obtain ⟨-, -, -, -, -, hdecode, -⟩ := decodeIsTotalByOpcode o
  exact ⟨hdecode, fun v hv => ⟨low3 v, zext_low3 v, execOut_of_comboValue hv⟩, execOut_of_reserved⟩

end Sys2Proof.Machine
end

section
/-! Faults (60_exceptions.md R152 to R160): which instruction raises which reason, the order of the tests, and that a
fault entry changes nothing but the record. -/

namespace Sys2Proof.Machine

open Sys2Proof.Spec

/-! ### The record of a fault -/

theorem opcodeOf_decode (opcode operand : Element) : opcodeOf (decode opcode operand) = opcode := by
  revert opcode operand; decide

theorem operand_decode (opcode operand : Element) : (decode opcode operand).operand = operand := by
  revert opcode operand; decide

/-- The record, made from the decoded instruction, holds the two elements fetched (60_exceptions.md R160). -/
theorem raiseInvalidOperand_decode (s : State) (opcode operand : Element) (reason : Reason) :
    raiseInvalidOperand s (decode opcode operand) reason = operandFault s reason opcode operand := by
  rw [raiseInvalidOperand, opcodeOf_decode, operand_decode]
  rfl

theorem reason_eq_of_raiseInvalidOperand_eq {s : State} {i : Instr} {r r' : Reason}
    (h : raiseInvalidOperand s i r = raiseInvalidOperand s i r') : r = r' := by
  simpa using congrArg State.info h

/-! ### Which instruction raises which reason -/

/-- The condition under which `i` raises `InvalidOperand` with each reason (60_exceptions.md R152, R153, R154); `budget`
is no instruction's reason. -/
def Raises (i : Instr) (s : State) : Reason → Prop
  | .combo7 => i.operandKind = .combo ∧ i.operand = 7#3
  | .jumpOdd => ∃ o, i = .jnz o ∧ s.a ≠ 0 ∧ o.toNat % 2 = 1
  | .jumpOutOfBounds => ∃ o, i = .jnz o ∧ s.a ≠ 0 ∧ o.toNat % 2 = 0 ∧ s.pmem.length ≤ o.toNat
  | .budget => False

/-- The five instructions that resolve a combo operand (30_encoding.md R77). -/
theorem eq_of_operandKind_combo {i : Instr} (h : i.operandKind = .combo) :
    ∃ o, i = .adv o ∨ i = .bst o ∨ i = .out o ∨ i = .bdv o ∨ i = .cdv o := by
  cases i with
  | adv o => exact ⟨o, .inl rfl⟩
  | bst o => exact ⟨o, .inr (.inl rfl)⟩
  | out o => exact ⟨o, .inr (.inr (.inl rfl))⟩
  | bdv o => exact ⟨o, .inr (.inr (.inr (.inl rfl)))⟩
  | cdv o => exact ⟨o, .inr (.inr (.inr (.inr rfl)))⟩
  | bxl o | jnz o | bxc o => cases h

theorem exec_of_raises {i : Instr} {s : State} {reason : Reason} (h : Raises i s reason) :
    exec i s = .next (raiseInvalidOperand s i reason) := by
  cases reason with
  | combo7 =>
    obtain ⟨hcombo, h7⟩ := h
    obtain ⟨o, rfl | rfl | rfl | rfl | rfl⟩ := eq_of_operandKind_combo hcombo <;> exact withCombo_of_reserved h7
  | jumpOdd =>
    obtain ⟨o, rfl, ha, hodd⟩ := h
    exact execJnz_of_jumpFault ha (jumpFault_of_odd hodd)
  | jumpOutOfBounds =>
    obtain ⟨o, rfl, ha, heven, hl⟩ := h
    exact execJnz_of_jumpFault ha (jumpFault_of_even_of_length_le heven hl)
  | budget => exact h.elim

/-- A state that counts the step is no fault entry. -/
theorem ne_raiseInvalidOperand_of_steps {s t : State} (h : t.steps = s.steps + 1) (i : Instr) (reason : Reason) :
    raiseInvalidOperand s i reason ≠ t := by
  rintro rfl
  simp at h

/-- An instruction that resolves its combo operand, and counts the step when it goes on, raises `combo7` alone. -/
theorem raises_of_withCombo {i : Instr} {s : State} {k : Nat → State} {reason : Reason}
    (hcombo : i.operandKind = .combo) (hk : ∀ v, (k v).steps = s.steps + 1)
    (h : withCombo i s k = .next (raiseInvalidOperand s i reason)) : Raises i s reason := by
  rcases withCombo_next h with ⟨v, -, heq⟩ | ⟨h7, heq⟩
  · exact absurd heq (ne_raiseInvalidOperand_of_steps (hk v) i reason)
  · cases reason_eq_of_raiseInvalidOperand_eq heq
    exact ⟨hcombo, h7⟩

theorem raises_of_execJnz {o : Element} {s : State} {reason : Reason}
    (h : execJnz o s = .next (raiseInvalidOperand s (.jnz o) reason)) : Raises (.jnz o) s reason := by
  rcases execJnz_next h with ⟨-, heq⟩ | ⟨-, -, -, heq⟩ | ⟨ha, hodd, heq⟩ | ⟨ha, heven, hl, heq⟩
  · exact absurd heq (ne_raiseInvalidOperand_of_steps rfl _ _)
  · exact absurd heq (ne_raiseInvalidOperand_of_steps rfl _ _)
  · cases reason_eq_of_raiseInvalidOperand_eq heq
    exact ⟨o, rfl, ha, hodd⟩
  · cases reason_eq_of_raiseInvalidOperand_eq heq
    exact ⟨o, rfl, ha, heven, hl⟩

/-- An instruction answers the fault with a reason exactly under that reason's condition, in every state. -/
theorem exec_raise_iff {i : Instr} {s : State} {reason : Reason} :
    exec i s = .next (raiseInvalidOperand s i reason) ↔ Raises i s reason := by
  refine ⟨fun h => ?_, exec_of_raises⟩
  cases i with
  | adv o | bst o | out o | bdv o | cdv o => exact raises_of_withCombo rfl (fun _ => by simp) h
  | jnz o => exact raises_of_execJnz h
  | bxl o | bxc o =>
    exact absurd (Host.Outcome.next.inj h).symm (ne_raiseInvalidOperand_of_steps (by simp) _ _)

theorem exists_exec_eq_iff {i : Instr} {s u : State} : (∃ t, exec i s = .next t ∧ t = u) ↔ exec i s = .next u :=
  exists_eq_right

/-! ### The two jump reasons -/

theorem even_element_cases {o : Element} : o.toNat % 2 = 0 → o = 0#3 ∨ o = 2#3 ∨ o = 4#3 ∨ o = 6#3 := by
  revert o; decide

theorem odd_element_iff (o : Element) : o.toNat % 2 = 1 ↔ o = 1#3 ∨ o = 3#3 ∨ o = 5#3 ∨ o = 7#3 := by
  revert o; decide

/-- Settles O49: the condition of `JumpOutOfBounds`, and an even length between 1 and the greatest even element 6. -/
theorem jumpOutOfBoundsExactly : Obligations.JumpOutOfBoundsExactly := by
  intro i s
  refine ⟨exists_exec_eq_iff.trans exec_raise_iff, fun hlen hpos o heven hl => ?_⟩
  rcases even_element_cases heven with rfl | rfl | rfl | rfl
  · exact absurd hpos (Nat.not_lt.2 hl)
  · simp at hl ⊢; omega
  · simp at hl ⊢; omega
  · simp at hl ⊢; omega

/-- Settles O50: the condition of `JumpOdd`, with the four odd elements listed. -/
theorem jumpOddExactly : Obligations.JumpOddExactly := by
  intro i s
  refine (exists_exec_eq_iff.trans exec_raise_iff).trans ⟨?listed, ?raised⟩
  case listed =>
    rintro ⟨o, rfl, ha, hodd⟩
    exact ⟨ha, by simpa using (odd_element_iff o).1 hodd⟩
  case raised =>
    rintro ⟨ha, rfl | rfl | rfl | rfl⟩ <;> exact ⟨_, rfl, ha, rfl⟩

/-! ### The reserved words -/

/-- The words of a combo instruction with operand 7 (30_encoding.md R79). -/
theorem reserved_word_iff (w : InstrWord) :
    ((decodeWord w).operandKind = .combo ∧ (decodeWord w).operand = 7#3) ↔
      (w = 0o07#6 ∨ w = 0o27#6 ∨ w = 0o57#6 ∨ w = 0o67#6 ∨ w = 0o77#6) := by
  revert w; decide

/-- Settles O51: the condition of `Combo7`, which is one on the word alone. -/
theorem reservedWordsRaiseCombo7 : Obligations.ReservedWordsRaiseCombo7 := by
  intro w s
  have hraise : exec (decodeWord w) s = .next (operandFault s .combo7 (opcodeField w) (operandField w)) ↔
      Raises (decodeWord w) s .combo7 := by
    rw [← exec_raise_iff, decodeWord, raiseInvalidOperand_decode]
  exact (exists_exec_eq_iff.trans hraise).trans (reserved_word_iff w)

/-! ### Fault entry from the run loop -/

theorem step_budget {s : State} (hs : s.status = .running) (hpc : s.pc < instrCount s) (hb : s.steps = s.maxSteps) :
    step s = .next (raiseStepBudgetExceeded s) :=
  (step_running hs).trans (runPass_budget hpc hb)

/-- Everything a fault entry from a running machine can be: the budget's, or that of the instruction fetched. -/
theorem step_fault {s t : State} (hs : s.status = .running) (h : step s = .next t) (ht : t.status = .fault) :
    (s.pc < instrCount s ∧ s.steps = s.maxSteps ∧ t = raiseStepBudgetExceeded s) ∨
      ∃ hpc : s.pc < instrCount s, ∃ reason, reason ≠ .budget ∧
        t = operandFault s reason (fetch s hpc).1 (fetch s hpc).2 := by
  rcases step_next h with ⟨hhalted, -⟩ | ⟨-, -, rfl⟩ | ⟨-, hpc, hb, rfl⟩ | ⟨-, -, hpc, hexec⟩
  · simp [hs] at hhalted
  · simp at ht
  · exact .inl ⟨hpc, hb, rfl⟩
  · obtain ⟨reason, hreason, rfl⟩ := exec_fault (by simp [hs]) hexec ht
    exact .inr ⟨hpc, reason, hreason, raiseInvalidOperand_decode ..⟩

/-- Settles O14: the halt test and the budget test, and an instruction's own fault has the other cause. -/
theorem budgetFaultIsRaisedBetweenSteps : Obligations.BudgetFaultIsRaisedBetweenSteps := by
  intro s hs
  refine ⟨step_budget hs, fun hpc _ => step_at_end hs hpc, fun t h ht hcause => ?_⟩
  rcases step_fault hs h ht with ⟨hpc, hb, -⟩ | ⟨hpc, reason, -, rfl⟩
  · exact ⟨hpc, hb⟩
  · cases hcause

/-- Settles O18: either fault is the spec's, and the elements recorded are those the store holds at the faulting `pc`. -/
theorem faultsArePrecise : Obligations.FaultsArePrecise := by
  intro s t hs h ht
  rcases step_fault hs h ht with ⟨-, -, rfl⟩ | ⟨hpc, reason, hreason, rfl⟩
  · exact ⟨.budget, none, none, fun _ => ⟨rfl, rfl⟩, fun hne => absurd rfl hne, rfl⟩
  · obtain ⟨hopcode, hoperand⟩ := readPmem_fetch hpc
    refine ⟨reason, _, _, fun heq => absurd heq hreason, fun _ => ⟨hopcode.symm, hoperand.symm⟩, ?_⟩
    rw [if_neg hreason, operandFault]

/-- Settles O15: the tests of a pass in their order, the condition of each reason, and `JumpOdd` tested before the
bound. -/
theorem testsHaveTheirPriority : Obligations.TestsHaveTheirPriority := by
  refine ⟨fun s => step_at_end, fun s => step_budget, fun i s t hs h ht => ?reason, fun o s ha hodd _ => ?oddFirst⟩
  case reason =>
    obtain ⟨reason, -, rfl⟩ := exec_fault (by simp [hs]) h ht
    refine ⟨_, rfl, ?_⟩
    have hraises := exec_raise_iff.1 h
    cases reason with
    | combo7 =>
      obtain ⟨hcombo, -⟩ := hraises
      exact .inl ⟨rfl, eq_of_operandKind_combo hcombo⟩
    | jumpOdd =>
      obtain ⟨o, hi, -⟩ := hraises
      exact .inr ⟨.inl rfl, o, hi⟩
    | jumpOutOfBounds =>
      obtain ⟨o, hi, -⟩ := hraises
      exact .inr ⟨.inr rfl, o, hi⟩
    | budget => exact hraises.elim
  case oddFirst => exact execJnz_of_jumpFault ha (jumpFault_of_odd hodd)

end Sys2Proof.Machine
end

section
/-! Launch and step budget (70_reset_and_hazards.md R182, R193): the state a launch creates, and what the budget decides
of a run. -/

namespace Sys2Proof.Machine

/-! ### The state a launch creates -/

/-- Settles O8: a launch that creates a run writes each field, and the store of a valid program reads as the program. -/
theorem launchCreatesTheInitialState : Obligations.LaunchCreatesTheInitialState := by
  intro cfg args s h
  obtain ⟨-, hvalid, -, rfl⟩ := launch_next h
  exact ⟨rfl, rfl, rfl, rfl, rfl, rfl, rfl, rfl, List.length_map _,
    readPmem_launched hvalid args.a args.b args.c args.maxSteps⟩

/-! ### The same state with another budget -/

/-- `s` with the budget `m` in place of its own. -/
def withBudget (m : Nat) (s : State) : State := { s with maxSteps := m }

theorem withBudget_writeReg (m : Nat) (s : State) (r : Reg) (v : Nat) :
    withBudget m (writeReg s r v) = writeReg (withBudget m s) r v := by
  cases r <;> rfl

theorem withCombo_withBudget {m : Nat} {i : Instr} {s t : State} {k k' : Nat → State}
    (h : withCombo i s k = .next t) (hk : ∀ v, k' v = withBudget m (k v)) :
    withCombo i (withBudget m s) k' = .next (withBudget m t) := by
  rcases withCombo_next h with ⟨v, hv, rfl⟩ | ⟨h7, rfl⟩
  · rw [← hk v]
    exact withCombo_of_some hv
  · exact withCombo_of_reserved h7

theorem divideInto_withBudget {m : Nat} {dest : Reg} {i : Instr} {s t : State} (h : divideInto dest i s = .next t) :
    divideInto dest i (withBudget m s) = .next (withBudget m t) :=
  withCombo_withBudget h fun v => congrArg completeNext (withBudget_writeReg m s dest (lsr s.a v)).symm

theorem execJnz_withBudget {m : Nat} {o : Element} {s t : State} (h : execJnz o s = .next t) :
    execJnz o (withBudget m s) = .next (withBudget m t) := by
  rcases execJnz_next h with ⟨ha, rfl⟩ | ⟨ha, he, hl, rfl⟩ | ⟨ha, he, rfl⟩ | ⟨ha, he, hl, rfl⟩
  · exact execJnz_of_a_eq_zero ha
  · exact execJnz_of_legal ha he hl
  · exact execJnz_of_jumpFault ha (jumpFault_of_odd he)
  · exact execJnz_of_jumpFault ha (jumpFault_of_even_of_length_le he hl)

/-- No instruction reads the budget. -/
theorem exec_withBudget {m : Nat} {i : Instr} {s t : State} (h : exec i s = .next t) :
    exec i (withBudget m s) = .next (withBudget m t) := by
  cases i with
  | adv o => exact divideInto_withBudget h
  | bdv o => exact divideInto_withBudget h
  | cdv o => exact divideInto_withBudget h
  | bxl o => cases h; rfl
  | bxc o => cases h; rfl
  | bst o => exact withCombo_withBudget h fun _ => rfl
  | out o => exact withCombo_withBudget h fun _ => rfl
  | jnz o => exact execJnz_withBudget h

/-! ### What fits a budget -/

/-- A run with budget `m` can come to `s`, whatever budget `s` itself holds: the steps counted fit, and a fault was
raised by an instruction, for which one more step was left. -/
structure FitsBudget (m : Nat) (s : State) : Prop where
  stepsLe : s.steps ≤ m
  faultBelow : s.status = .fault → s.cause = some .invalidOperand ∧ s.steps < m

/-- The run ended by the fault of the budget test. -/
def BudgetExceeded (s : State) : Prop := s.status = .fault ∧ s.cause = some .stepBudgetExceeded

theorem FitsBudget.mono {m n : Nat} {s : State} (h : FitsBudget m s) (hmn : m ≤ n) : FitsBudget n s where
  stepsLe := h.stepsLe.trans hmn
  faultBelow hs := (h.faultBelow hs).imp_right fun hlt => hlt.trans_le hmn

theorem fitsBudget_withBudget (m n : Nat) (s : State) : FitsBudget m (withBudget n s) ↔ FitsBudget m s :=
  ⟨fun h => ⟨h.stepsLe, h.faultBelow⟩, fun h => ⟨h.stepsLe, h.faultBelow⟩⟩

theorem fitsBudget_of_halted {m : Nat} {s : State} (h : s.status = .halted) : FitsBudget m s ↔ s.steps ≤ m :=
  ⟨FitsBudget.stepsLe, fun hle => ⟨hle, fun hfault => absurd (h.symm.trans hfault) (by decide)⟩⟩

theorem fitsBudget_of_invalidOperand {m : Nat} {s : State} (h : s.status = .fault)
    (hc : s.cause = some .invalidOperand) : FitsBudget m s ↔ s.steps < m :=
  ⟨fun hfit => (hfit.faultBelow h).2, fun hlt => ⟨hlt.le, fun _ => ⟨hc, hlt⟩⟩⟩

theorem not_fitsBudget_of_exceeded {m : Nat} {s : State} (h : BudgetExceeded s) : ¬ FitsBudget m s := by
  obtain ⟨hfault, hcause⟩ := h
  intro hfit
  obtain ⟨hc, -⟩ := hfit.faultBelow hfault
  exact absurd (hcause.symm.trans hc) (by decide)

/-- An instruction whose result fits the budget left one step of it to run in. -/
theorem steps_lt_of_exec_fits {m : Nat} {i : Instr} {s t : State} (h : exec i s = .next t) (ht : FitsBudget m t) :
    s.steps < m := by
  rcases exec_status_steps h with ⟨-, hcount⟩ | ⟨hfault, hcount⟩
  · exact Nat.lt_of_succ_le (hcount.symm.trans_le ht.stepsLe)
  · obtain ⟨-, hlt⟩ := ht.faultBelow hfault
    exact hcount.symm.trans_lt hlt

/-- What comes before a state that fits the budget fits it, too. -/
theorem fitsBudget_of_step_fits {m : Nat} {s t : State} (h : step s = .next t) (ht : FitsBudget m t) :
    FitsBudget m s := by
  have hrun (hs : s.status = .running) (hle : s.steps ≤ m) : FitsBudget m s :=
    ⟨hle, fun hfault => absurd (hs.symm.trans hfault) (by decide)⟩
  rcases step_next h with ⟨-, rfl⟩ | ⟨hs, -, rfl⟩ | ⟨-, -, -, rfl⟩ | ⟨hs, -, hpc, hexec⟩
  · exact ht
  · exact hrun hs ht.stepsLe
  · exact absurd ht (not_fitsBudget_of_exceeded ⟨rfl, rfl⟩)
  · exact hrun hs (steps_lt_of_exec_fits hexec ht).le

theorem fitsBudget_of_runLoop_fits {m : Nat} (fuel : Nat) {s : State} (h : FitsBudget m (runLoop fuel s)) :
    FitsBudget m s := by
  induction fuel generalizing s with
  | zero => exact h
  | succ fuel ih =>
    by_cases hs : s.status = .running
    · obtain ⟨t, ht⟩ := step_running_isNext hs
      rw [runLoop_step hs ht] at h
      exact fitsBudget_of_step_fits ht (ih h)
    · rwa [runLoop_of_not_running hs] at h

/-! ### A run with another budget -/

/-- Where the next state fits the budget `m`, the pass is the same with that budget. -/
theorem step_withBudget {m : Nat} {s t : State} (h : step s = .next t) (ht : FitsBudget m t) :
    step (withBudget m s) = .next (withBudget m t) := by
  rcases step_next h with ⟨hs, rfl⟩ | ⟨hs, hpc, rfl⟩ | ⟨-, -, -, rfl⟩ | ⟨hs, -, hpc, hexec⟩
  · exact step_halted hs
  · exact step_at_end hs hpc
  · exact absurd ht (not_fitsBudget_of_exceeded ⟨rfl, rfl⟩)
  · have hroom : s.steps ≠ m := (steps_lt_of_exec_fits hexec ht).ne
    calc step (withBudget m s)
        _ = runPass (withBudget m s) := step_running hs
        _ = exec (decode (fetch s hpc).1 (fetch s hpc).2) (withBudget m s) :=
          runPass_exec (s := withBudget m s) hpc hroom
        _ = .next (withBudget m t) := exec_withBudget hexec

theorem runLoop_withBudget {m : Nat} (fuel : Nat) {s : State} (h : FitsBudget m (runLoop fuel s)) :
    runLoop fuel (withBudget m s) = withBudget m (runLoop fuel s) := by
  induction fuel generalizing s with
  | zero => rfl
  | succ fuel ih =>
    by_cases hs : s.status = .running
    · obtain ⟨t, ht⟩ := step_running_isNext hs
      rw [runLoop_step hs ht] at h ⊢
      have hstep := step_withBudget ht (fitsBudget_of_runLoop_fits fuel h)
      rw [runLoop_step (s := withBudget m s) hs hstep, ih h]
    · rw [runLoop_of_not_running hs, runLoop_of_not_running (s := withBudget m s) hs]

/-- All fuels that end a run end it in the same state. -/
theorem runLoop_eq_of_over {n k : Nat} {s : State} (hn : RunOver (runLoop n s)) (hk : RunOver (runLoop k s)) :
    runLoop n s = runLoop k s :=
  calc runLoop n s
      _ = runLoop (n + k) s := by rw [runLoop_add, runLoop_of_over hn]
      _ = runLoop (k + n) s := by rw [Nat.add_comm]
      _ = runLoop k s := by rw [runLoop_add, runLoop_of_over hk]

/-! ### How a run within its budget ends -/

/-- What a run with budget `m` is at after any number of passes. -/
def FitsOrExceeded (m : Nat) (s : State) : Prop := FitsBudget m s ∨ BudgetExceeded s

theorem fitsOrExceeded_of_step {m : Nat} {s t : State} (hw : WithinBudget m s) (h : FitsOrExceeded m s)
    (ht : step s = .next t) : FitsOrExceeded m t := by
  have hsteps : t.steps ≤ m := by
    obtain ⟨-, hle, hm⟩ := withinBudget_of_step hw ht
    exact hle.trans_eq hm
  rcases step_next ht with ⟨-, rfl⟩ | ⟨-, -, rfl⟩ | ⟨-, -, -, rfl⟩ | ⟨hs, hb, hpc, hexec⟩
  · exact h
  · exact .inl ((fitsBudget_of_halted rfl).2 hsteps)
  · exact .inr ⟨rfl, rfl⟩
  · refine .inl ⟨hsteps, fun hfault => ?_⟩
    obtain ⟨reason, -, rfl⟩ := exec_fault (by simp [hs]) hexec hfault
    exact ⟨rfl, hsteps.lt_of_ne (hw.budget ▸ hb)⟩

section
variable (p : List Element) (a b c : Nat)

theorem runToEnd_launched_over (m : Nat) : RunOver (runToEnd (State.launched p a b c m)) :=
  runToEnd_over (withinBudget_launched p a b c m)

theorem runToEnd_launched_fitsOrExceeded (m : Nat) : FitsOrExceeded m (runToEnd (State.launched p a b c m)) := by
  obtain ⟨-, h⟩ := runLoop_keeps (P := fun s => WithinBudget m s ∧ FitsOrExceeded m s)
    (fun _ _ ⟨hw, h⟩ ht => ⟨withinBudget_of_step hw ht, fitsOrExceeded_of_step hw h ht⟩) _
    ⟨withinBudget_launched p a b c m, .inl ⟨Nat.zero_le m, nofun⟩⟩
  exact h

variable {p a b c} {m n : Nat}

/-- A run that ends in a state that fits another budget ends so with that budget. -/
theorem runToEnd_launched_of_fits (h : FitsBudget m (runToEnd (State.launched p a b c n))) :
    runToEnd (State.launched p a b c m) = withBudget m (runToEnd (State.launched p a b c n)) := by
  have hsame := runLoop_withBudget _ h
  have hover : RunOver (withBudget m (runToEnd (State.launched p a b c n))) := runToEnd_launched_over p a b c n
  exact (runLoop_eq_of_over (runToEnd_launched_over p a b c m) (hsame ▸ hover)).trans hsame

/-- A run that ends within its own budget in a state that does not fit another exceeds that other budget: if it did not,
its end would be the same with both. -/
theorem exceeded_of_not_fits (hn : ¬ BudgetExceeded (runToEnd (State.launched p a b c n)))
    (hm : ¬ FitsBudget m (runToEnd (State.launched p a b c n))) :
    BudgetExceeded (runToEnd (State.launched p a b c m)) := by
  have hfitn := (runToEnd_launched_fitsOrExceeded p a b c n).resolve_right hn
  refine (runToEnd_launched_fitsOrExceeded p a b c m).resolve_left fun hfitm => ?_
  have hmn : m ≤ n := by
    rcases Nat.le_total m n with hle | hle
    · exact hle
    · exact absurd (hfitn.mono hle) hm
  rw [runToEnd_launched_of_fits (hfitm.mono hmn), fitsBudget_withBudget] at hm
  exact hm hfitm

end

/-- Settles O31: a run halted after `s` steps fits the budgets from `s`, one that an instruction faulted those above `s`.
With a budget that its end fits, the run ends the same; any other it exceeds. -/
theorem budgetIsMonotone : Obligations.BudgetIsMonotone := by
  intro cfg args s h m s' h'
  obtain ⟨-, -, -, rfl⟩ := launch_next h
  obtain ⟨-, -, -, rfl⟩ := launch_next h'
  refine ⟨fun hhalted => ⟨fun hle => ?_, fun hlt => ?_⟩, fun hfault hcause => ⟨fun hlt => ?_, fun hle => ?_⟩⟩
  · exact runToEnd_launched_of_fits ((fitsBudget_of_halted hhalted).2 hle)
  · refine exceeded_of_not_fits (n := args.maxSteps) (fun ⟨hfault, _⟩ => ?_) fun hfit => ?_
    · exact absurd (hhalted.symm.trans hfault) (by decide)
    · exact Nat.not_le.2 hlt ((fitsBudget_of_halted hhalted).1 hfit)
  · exact runToEnd_launched_of_fits ((fitsBudget_of_invalidOperand hfault hcause).2 hlt)
  · refine exceeded_of_not_fits (n := args.maxSteps) (fun ⟨_, hbudget⟩ => ?_) fun hfit => ?_
    · exact absurd (hcause.symm.trans hbudget) (by decide)
    · exact Nat.not_lt.2 hle ((fitsBudget_of_invalidOperand hfault hcause).1 hfit)

end Sys2Proof.Machine
end

section
/-! Decode and encode (30_encoding.md R70 to R81): each undoes the other, for a pair, a word, a number and a program. -/

namespace Sys2Proof

open Sys2Proof.Machine

/-! ### One instruction -/

@[simp] theorem decode_encode (i : Instr) : decode (opcodeOf i) i.operand = i := by
  obtain ⟨hadv, hbxl, hbst, hjnz, hbxc, hout, hbdv, hcdv⟩ := decodeIsTotalByOpcode i.operand
  cases i <;> assumption

theorem encode_decode (opcode operand : Element) : encode (decode opcode operand) = (opcode, operand) := by
  rw [encode, opcodeOf_decode, operand_decode]

@[simp] theorem decodeWord_encodeWord (i : Instr) : decodeWord (encodeWord i) = i := by
  rw [encodeWord, decodeWord, opcodeField_packWord, operandField_packWord, decode_encode]

@[simp] theorem encodeWord_decodeWord (w : InstrWord) : encodeWord (decodeWord w) = w := by
  rw [decodeWord, encodeWord, opcodeOf_decode, operand_decode, packWord_fields]

theorem decodeTableWord_of_lt (nbits : Nat) {w : Nat} (h : w < 64) :
    decodeTableWord nbits w = some (decodeWord (BitVec.ofNat 6 w)) := by
  rw [decodeTableWord, decodeNumber, if_pos h]

theorem decodeTableWord_of_le (nbits : Nat) {w : Nat} (h : 64 ≤ w) : decodeTableWord nbits w = none := by
  rw [decodeTableWord, decodeNumber, if_neg (Nat.not_lt.2 h)]

/-- The numbers that decode are those of six bits, each to the instruction of its word. -/
theorem decodeTableWord_eq_some_iff {nbits w : Nat} {i : Instr} :
    decodeTableWord nbits w = some i ↔ w < 64 ∧ decodeWord (BitVec.ofNat 6 w) = i := by
  rcases Nat.lt_or_ge w 64 with h | h
  · simp [decodeTableWord_of_lt nbits h, h]
  · simp [decodeTableWord_of_le nbits h, Nat.not_lt.2 h]

theorem decodeTableWord_toNat (nbits : Nat) (w : InstrWord) : decodeTableWord nbits w.toNat = some (decodeWord w) := by
  rw [decodeTableWord_of_lt nbits w.isLt, BitVec.ofNat_toNat, BitVec.setWidth_eq]

/-- Settles O3: the opcode and the operand of an instruction are the pair it decodes from, and a word is its
two fields. -/
theorem decodeEncodeRoundTrip : Obligations.DecodeEncodeRoundTrip := by
  refine ⟨fun i => ⟨decode_encode i, decodeWord_encodeWord i, ?_⟩, encode_decode, encodeWord_decodeWord,
    fun nbits w => decodeTableWord_of_le nbits⟩
  rw [decodeTableWord_toNat, decodeWord_encodeWord]

/-- Settles O2: the opcode field of each word selects the decoder's arm, and its operand field is handed on. -/
theorem writtenOutWordsDecode : Obligations.WrittenOutWordsDecode :=
  ⟨rfl, rfl, rfl, rfl, rfl, rfl, rfl, rfl, rfl⟩

/-! ### A program -/

theorem decodeProgram_encodeProgram (is : List Instr) : decodeProgram (encodeProgram is) = is := by
  induction is with
  | nil => rfl
  | cons i is ih => rw [encodeProgram, decodeProgram, decode_encode, ih]

theorem encodeProgram_decodeProgram (p : List Element) : p.length % 2 = 0 → encodeProgram (decodeProgram p) = p := by
  induction p using flat_induction with
  | nil => exact fun _ => rfl
  | single x => exact fun h => absurd h (by simp)
  | pair x y rest ih =>
    intro h
    have heven : rest.length % 2 = 0 := (Nat.add_mod_right rest.length 2).symm.trans h
    rw [decodeProgram, encodeProgram, opcodeOf_decode, operand_decode, ih heven]

/-- Instruction `i` of a flat program is what the elements `2 * i` and `2 * i + 1` decode to (20_memory.md R52). -/
theorem getElem?_decodeProgram (p : List Element) : ∀ {i : Nat} {opcode operand : Element},
    p[2 * i]? = some opcode → p[2 * i + 1]? = some operand → (decodeProgram p)[i]? = some (decode opcode operand) := by
  induction p using flat_induction with
  | nil => exact nofun
  | single x => exact fun _ h => nomatch h
  | pair x y rest ih =>
    intro i opcode operand hopcode hoperand
    cases i with
    | zero =>
      obtain rfl : x = opcode := Option.some.inj hopcode
      obtain rfl : y = operand := Option.some.inj hoperand
      rfl
    | succ i => exact ih hopcode hoperand

/-- Settles O4: by induction over the instructions, and over the flat program two elements at a time. -/
theorem programRoundTrip : Obligations.ProgramRoundTrip :=
  ⟨decodeProgram_encodeProgram, encodeProgram_decodeProgram, fun p _ _ _ => getElem?_decodeProgram p⟩

/-! ### The opcode table -/

/-- Settles O6: over the 64 words, each of the table's masks keeps the opcode field alone. -/
theorem everyWordHasOneTableRow : Obligations.EveryWordHasOneTableRow := by
  unfold Obligations.EveryWordHasOneTableRow
  decide

end Sys2Proof
end

section
/-! The invariant of a run: the launch establishes it and every step keeps it (10_state.md sections 3 to 5, 7;
60_exceptions.md section 4). -/

namespace Sys2Proof.Machine

open Sys2Proof.Spec

/-! ### Launch and reset -/

theorem runInv_launched {p : List Element} (h : Memory.wf p = true) (a b c m : Nat) :
    RunInv (State.launched p a b c m) where
  storeWf := h
  pcInRange := Nat.zero_le _
  stepsInBudget := Nat.zero_le _
  outWithinSteps := Nat.zero_le _
  haltedAtEnd := nofun
  faultRecord := nofun

/-- Settles O10: the loader accepts only programs of whole instructions, and a launched run is at its beginning. -/
theorem launchEstablishesInv : Obligations.LaunchEstablishesInv := by
  intro cfg args s h
  obtain ⟨-, hvalid, -, rfl⟩ := launch_next h
  exact runInv_launched (toElements_wf hvalid) ..

/-- Settles O11: reset is a launch of the empty program. -/
theorem resetSatisfiesInv : Obligations.ResetSatisfiesInv := runInv_launched reset_wf 0 0 0 0

/-! ### Step -/

/-- A step that answers a next state from a machine that does not run answers that machine itself (log 6). -/
theorem step_eq_self {s t : State} (hs : s.status ≠ .running) (h : step s = .next t) : t = s := by
  rcases step_next h with ⟨-, rfl⟩ | ⟨hrun, -⟩ | ⟨hrun, -⟩ | ⟨hrun, -⟩
  · rfl
  · exact absurd hrun hs
  · exact absurd hrun hs
  · exact absurd hrun hs

/-- The record of either fault names the instruction at `pc`; the elements are those the pass fetched. -/
theorem faultRecordOk_of_step {s t : State} (hs : s.status = .running) (h : step s = .next t) : FaultRecordOk t := by
  intro ht
  rcases step_next h with ⟨hhalted, -⟩ | ⟨-, -, rfl⟩ | ⟨-, hpc, hb, rfl⟩ | ⟨-, hb, hpc, hexec⟩
  · simp [hs] at hhalted
  · simp at ht
  · exact ⟨hpc, .inl ⟨rfl, hb, rfl⟩⟩
  · obtain ⟨reason, hreason, rfl⟩ := exec_fault (by simp [hs]) hexec ht
    obtain ⟨hopcode, hoperand⟩ := readPmem_fetch hpc
    have hinfo : (operandFault s reason (fetch s hpc).1 (fetch s hpc).2).info =
        some ⟨reason, s.pc, readPmem s (2 * s.pc), readPmem s (2 * s.pc + 1)⟩ := by
      rw [hopcode, hoperand]
      rfl
    rw [raiseInvalidOperand_decode]
    exact ⟨hpc, .inr ⟨rfl, hb, reason, hreason, hinfo⟩⟩

/-- Settles O25: a step leaves the store, keeps `pc` and the counters in range, halts at `N` alone, and records
its fault. -/
theorem stepKeepsInv : Obligations.StepKeepsInv := by
  intro s t hinv h
  by_cases hs : s.status = .running
  · have hrange : s.pc ≤ s.pmem.length / 2 := hinv.pcInRange
    have hmove := step_pc hinv.storeWf h
    have hcount : instrCount t = s.pmem.length / 2 := by rw [instrCount, progLen, step_pmem h]
    obtain ⟨hout, hsteps, -⟩ := withinBudget_of_step ⟨hinv.outWithinSteps, hinv.stepsInBudget, rfl⟩ h
    have hpc : t.pc ≤ instrCount t := by omega
    refine ⟨step_pmem h ▸ hinv.storeWf, hpc, hsteps, hout, fun ht => ?_, faultRecordOk_of_step hs h⟩
    have hend : s.pmem.length / 2 ≤ s.pc := at_end_of_step_halted hs h ht
    omega
  · rwa [step_eq_self hs h]

end Sys2Proof.Machine
end

section
/-! Well-formed programs in the source's sense (00_scope.md section 5): they never end in `InvalidOperand`. -/

namespace Sys2Proof.Machine

open Sys2Proof.Spec

/-- The three parts of a well-formed instruction exclude the three reasons of `InvalidOperand`. -/
theorem not_raises_of_wellFormed {i : Instr} {s : State} (h : Instr.wellFormed (progLen s) i = true) (reason : Reason) :
    ¬ Raises i s reason := by
  simp only [Instr.wellFormed, Bool.and_eq_true, Bool.not_eq_true'] at h
  obtain ⟨⟨hreserved, heven⟩, hbounds⟩ := h
  cases reason with
  | combo7 =>
    rintro ⟨hcombo, h7⟩
    simp [Instr.reserved, hcombo, h7] at hreserved
  | jumpOdd =>
    rintro ⟨o, rfl, -, hodd⟩
    simp [Instr.targetEven, hodd] at heven
  | jumpOutOfBounds =>
    rintro ⟨o, rfl, -, -, hl⟩
    have hlt : o.toNat < s.pmem.length := of_decide_eq_true hbounds
    omega
  | budget => exact id

/-- What a pass fetches is an instruction of the program. -/
theorem decode_fetch_mem_decodeProgram {s : State} (hpc : s.pc < instrCount s) :
    decode (fetch s hpc).1 (fetch s hpc).2 ∈ decodeProgram s.pmem := by
  obtain ⟨hopcode, hoperand⟩ := readPmem_fetch hpc
  exact List.mem_of_getElem? (getElem?_decodeProgram s.pmem hopcode hoperand)

theorem wellFormedProgram_of_step {s t : State} (hwf : WellFormedProgram s) (h : step s = .next t) :
    WellFormedProgram t := by
  rw [WellFormedProgram, progLen, step_pmem h]
  exact hwf

theorem noInvalidOperand_of_step {s t : State} (hwf : WellFormedProgram s) (hsafe : NoInvalidOperand s)
    (h : step s = .next t) : NoInvalidOperand t := by
  rcases step_next h with ⟨-, rfl⟩ | ⟨-, -, rfl⟩ | ⟨-, -, -, rfl⟩ | ⟨hs, -, hpc, hexec⟩
  · exact hsafe
  · exact nofun
  · exact fun _ hcause => by simp at hcause
  · intro ht
    obtain ⟨reason, -, rfl⟩ := exec_fault (by simp [hs]) hexec ht
    have hinstr := hwf _ (decode_fetch_mem_decodeProgram hpc)
    exact absurd (exec_raise_iff.1 hexec) (not_raises_of_wellFormed hinstr reason)

theorem noInvalidOperand_of_launch {cfg : Config} {args : LaunchArgs} {s : State} (h : launch cfg args = .next s) :
    NoInvalidOperand s := by
  obtain ⟨-, -, -, rfl⟩ := launch_next h
  exact nofun

theorem result_eq_err_iff {s : State} {f : Fault} :
    result s = some (.err f) ↔ s.status = .fault ∧ s.cause = some f := by
  unfold result
  cases s.status <;> simp

theorem result_eq_ok_iff {s : State} {out : List Element} :
    result s = some (.ok out) ↔ s.status = .halted ∧ s.out = out := by
  unfold result
  cases s.status <;> simp

/-- Settles O27: the instruction a pass fetches is one of the program's, which raise no reason, and the run loop keeps
what a step keeps. -/
theorem wellFormedProgramsRaiseNoOperandFault : Obligations.WellFormedProgramsRaiseNoOperandFault := by
  refine ⟨fun s t _ hwf hsafe h => ⟨wellFormedProgram_of_step hwf h, noInvalidOperand_of_step hwf hsafe h⟩,
    fun cfg args s h hwf hrun => ?_⟩
  obtain ⟨-, hsafe⟩ : WellFormedProgram (runToEnd s) ∧ NoInvalidOperand (runToEnd s) :=
    runLoop_keeps (P := fun s => WellFormedProgram s ∧ NoInvalidOperand s)
      (fun _ _ ⟨hw, hn⟩ ht => ⟨wellFormedProgram_of_step hw ht, noInvalidOperand_of_step hw hn ht⟩) _
      ⟨hwf, noInvalidOperand_of_launch h⟩
  rw [run_of_launch h, result_eq_err_iff] at hrun
  obtain ⟨hfault, hcause⟩ := hrun
  exact hsafe hfault hcause

end Sys2Proof.Machine
end

section
/-! The frame of each family (10_state.md sections 2, 4; 20_memory.md section 6): what an instruction leaves as it
was. -/

namespace Sys2Proof.Machine

open Sys2Proof.Spec

/-! ### The output -/

/-- Only `out` emits. -/
theorem exec_out_of_ne_out {i : Instr} {s t : State} (h : exec i s = .next t) (hi : ∀ o, i ≠ .out o) :
    t.out = s.out := by
  rcases exec_next h with ⟨r, v, -, rfl⟩ | ⟨o, e, hout, -⟩ | ⟨o, -, -, rfl⟩ | ⟨o, -, -, -, -, rfl⟩ | ⟨reason, -, rfl⟩
  · simp
  · exact absurd hout (hi o)
  · rfl
  · rfl
  · rfl

/-- Settles O22: `out` completes by appending one element, no other instruction emits, and no fault entry does. -/
theorem outputGrowsOnlyByOut : Obligations.OutputGrowsOnlyByOut := by
  intro i s t hs h
  refine ⟨?completes, exec_out_of_ne_out h, fun ht => ?faults⟩
  case completes =>
    rintro ⟨o, rfl⟩ ht
    rcases execOut_next h with ⟨v, -, rfl⟩ | ⟨-, rfl⟩
    · exact ⟨low3 v, rfl⟩
    · exact absurd rfl ht
  case faults =>
    obtain ⟨reason, -, rfl⟩ := exec_fault (by simp [hs]) h ht
    rfl

/-! ### The control record -/

/-- The frame every instruction has: the store and the budget stay, and the control record changes by a
fault entry alone. -/
theorem controlFrame_of_exec {i : Instr} {s t : State} (h : exec i s = .next t) : ControlFrame s t := by
  refine ⟨fun e => by rw [readPmem, readPmem, exec_pmem h], exec_maxSteps h, ?_⟩
  rcases exec_next h with ⟨r, v, -, rfl⟩ | ⟨o, e, -, rfl⟩ | ⟨o, -, -, rfl⟩ | ⟨o, -, -, -, -, rfl⟩ | ⟨reason, -, rfl⟩
  · exact .inl (by simp)
  · exact .inl ⟨rfl, rfl, rfl⟩
  · exact .inl ⟨rfl, rfl, rfl⟩
  · exact .inl ⟨rfl, rfl, rfl⟩
  · exact .inr ⟨rfl, rfl, rfl, rfl, rfl, rfl, rfl⟩

/-! ### The families -/

theorem exec_a_of_not_written {i : Instr} {s t : State} (h : exec i s = .next t) (hw : writes i ≠ some .A) :
    t.a = s.a := exec_regOf_of_not_written h hw

theorem exec_b_of_not_written {i : Instr} {s t : State} (h : exec i s = .next t) (hw : writes i ≠ some .B) :
    t.b = s.b := exec_regOf_of_not_written h hw

theorem exec_c_of_not_written {i : Instr} {s t : State} (h : exec i s = .next t) (hw : writes i ≠ some .C) :
    t.c = s.c := exec_regOf_of_not_written h hw

/-- Settles O53: each of the three writes one register and emits nothing. -/
theorem frameOfDivideFamily : Obligations.FrameOfDivideFamily := by
  refine fun o s t => ⟨fun h => ?adv, fun h => ?bdv, fun h => ?cdv⟩
  case adv =>
    exact ⟨exec_b_of_not_written h nofun, exec_c_of_not_written h nofun, exec_out_of_ne_out h nofun,
      controlFrame_of_exec h⟩
  case bdv =>
    exact ⟨exec_a_of_not_written h nofun, exec_c_of_not_written h nofun, exec_out_of_ne_out h nofun,
      controlFrame_of_exec h⟩
  case cdv =>
    exact ⟨exec_a_of_not_written h nofun, exec_b_of_not_written h nofun, exec_out_of_ne_out h nofun,
      controlFrame_of_exec h⟩

/-- Settles O54: the family completes with B written, or is the reserved `bst` and enters `FAULT`. -/
theorem frameOfBitwiseFamily : Obligations.FrameOfBitwiseFamily := by
  intro i o s t hi h
  have hframe := controlFrame_of_exec h
  rcases exec_bitwise_next hi h with ⟨v, -, rfl⟩ | ⟨hbst, -, rfl⟩
  · exact ⟨rfl, rfl, rfl, hframe, fun _ => ⟨rfl, rfl, rfl⟩⟩
  · exact ⟨rfl, rfl, rfl, hframe, fun hne => absurd hbst hne⟩

/-- Settles O55: neither of the two has a register to write, and `out` appends one element or faults. -/
theorem frameOfJnzAndOut : Obligations.FrameOfJnzAndOut := by
  refine fun o s t => ⟨fun h => ?jnz, fun h => ?out⟩
  case jnz =>
    exact ⟨exec_a_of_not_written h nofun, exec_b_of_not_written h nofun, exec_c_of_not_written h nofun,
      exec_out_of_ne_out h nofun, controlFrame_of_exec h⟩
  case out =>
    have hframe := controlFrame_of_exec h
    rcases execOut_next h with ⟨v, -, rfl⟩ | ⟨-, rfl⟩
    · exact ⟨rfl, rfl, rfl, by simp, by simp, hframe⟩
    · exact ⟨rfl, rfl, rfl, by simp, by simp, hframe⟩

end Sys2Proof.Machine
end

section
/-! The ends of a run and its edges: a final state, a launch that cannot be presented, the budget of a quine value, and
the placing of one instruction. -/

namespace Sys2Proof.Machine

open Sys2Proof.Spec

/-! ### Final states -/

/-- Settles O17: `HALTED` answers itself, `FAULT` its cause. -/
theorem finalStatesStayFinal : Obligations.FinalStatesStayFinal :=
  ⟨fun _ => step_halted, fun _ _ hs => step_faulted hs⟩

/-- Settles O34: a fault entry records a cause, and that cause is all that a run which is over answers. -/
theorem faultEntryEndsTheRun : Obligations.FaultEntryEndsTheRun := by
  intro s t hs h ht
  have hrunning : FaultHasCause s := fun hfault => absurd (hs.symm.trans hfault) (by decide)
  obtain ⟨f, hf⟩ := faultHasCause_of_step hrunning h ht
  exact ⟨f, hf, step_faulted ht hf, result_fault ht hf, runLoop_of_over (.inr ht)⟩

/-! ### What a launch refuses -/

theorem launch_registerOutOfRange {cfg : Config} {args : LaunchArgs} (hregs : ¬ registersPresentable cfg args = true) :
    launch cfg args = .refused .registerOutOfRange := if_neg hregs

theorem launch_programTooLong {cfg : Config} {args : LaunchArgs} (hregs : registersPresentable cfg args = true)
    (hvalid : programValid args.program = true) (hlong : ¬ cfg.holdsProgram args.program.length = true) :
    launch cfg args = .refused .programTooLong := by
  simp [launch, hregs, hvalid, hlong]

/-- Settles O9: the register test goes first, and the test of the length last. -/
theorem unpresentableLaunchIsRefused : Obligations.UnpresentableLaunchIsRefused := by
  refine fun cfg args => ⟨fun w hw hbig => ?register, fun n hn hlong hregs heven hrange => ?long⟩
  case register =>
    refine launch_registerOutOfRange fun hregs => ?_
    obtain ⟨ha, hb, hc⟩ := (registersPresentable_iff cfg args).1 hregs w hw
    omega
  case long =>
    have hvalid := (programValid_iff args.program).2 ⟨heven, hrange⟩
    refine launch_programTooLong ((registersPresentable_iff cfg args).2 hregs) hvalid fun hfits => ?_
    exact Nat.not_le.2 hlong ((holdsProgram_iff cfg _).1 hfits n hn)

/-! ### The quine property -/

/-- A result `Ok(out)` is that of a launched run that halted with the output `out`. -/
theorem halted_of_run_ok {cfg : Config} {args : LaunchArgs} {out : List Element}
    (h : run cfg args = some (.ok out)) :
    ∃ s, launch cfg args = .next s ∧ (runToEnd s).status = .halted ∧ (runToEnd s).out = out := by
  unfold run at h
  split at h
  · next s hs => exact ⟨s, hs, result_eq_ok_iff.1 h⟩
  · cases h
  · cases h

/-- Settles O32: the output of the run is as long as the program, no longer than the steps taken, and those are within
the budget. -/
theorem quineNeedsAsManyStepsAsElements : Obligations.QuineNeedsAsManyStepsAsElements := by
  rintro cfg p maxSteps a ⟨-, hrun⟩
  obtain ⟨s, hs, -, hout⟩ := halted_of_run_ok hrun
  obtain ⟨hlen, hsteps⟩ : (runToEnd s).out.length ≤ (runToEnd s).steps ∧ (runToEnd s).steps ≤ maxSteps :=
    outputNeverLongerThanSteps cfg _ s _ hs
  calc p.length
      _ = (runToEnd s).out.length := by rw [hout, toElements, List.length_map]
      _ ≤ (runToEnd s).steps := hlen
      _ ≤ maxSteps := hsteps

/-! ### Placing one instruction -/

theorem withFetchWord_of_lt (s : State) (nbits : Nat) {w : Nat} (h : w < 64) :
    s.withFetchWord nbits w =
      { s with
        status := .running
        maxSteps := if s.steps = s.maxSteps then s.maxSteps + 1 else s.maxSteps
        pmem := placePair s.pmem s.pc (opcodeField (BitVec.ofNat 6 w)) (operandField (BitVec.ofNat 6 w)) } :=
  if_pos h

/-- A pass of a running machine with budget left executes what the pair at `2 * pc` and `2 * pc + 1` decodes to. -/
theorem step_of_readPmem {s : State} (hs : s.status = .running) (hb : s.steps ≠ s.maxSteps) {opcode operand : Element}
    (hopcode : readPmem s (2 * s.pc) = some opcode) (hoperand : readPmem s (2 * s.pc + 1) = some operand) :
    step s = exec (decode opcode operand) s := by
  have hpc : s.pc < instrCount s := by
    obtain ⟨hlt, -⟩ := List.getElem?_eq_some_iff.1 hoperand
    rw [instrCount, progLen]
    omega
  rw [step_running hs, runPass_exec hpc hb, fetch_eq_of_readPmem hpc hopcode hoperand]

/-- Settles O33: the placed pair is fetched by the next pass, which has the status and the budget it needs. -/
theorem placedWordRunsNext : Obligations.PlacedWordRunsNext := by
  intro s nbits w i h
  obtain ⟨hw, rfl⟩ := decodeTableWord_eq_some_iff.1 h
  rw [withFetchWord_of_lt s nbits hw]
  refine step_of_readPmem rfl ?_ (placePair_opcode ..) (placePair_operand ..)
  show s.steps ≠ if s.steps = s.maxSteps then s.maxSteps + 1 else s.maxSteps
  split <;> omega

end Sys2Proof.Machine
end

section
/-! Operands, the corner cases of the divide and bitwise families, and the units of a `W`-bit datapath
(40_execution_cycle.md R95; 41_divide_shift.md; 42_bitwise.md). -/

namespace Sys2Proof.Machine

open Sys2Proof.Spec

/-! ### Operand resolution -/

/-- Settles O35: the spec's table is the model's resolution of an operand, which is a function with no value at 7. -/
theorem operandsResolveByTheTable : Obligations.OperandsResolveByTheTable := by
  intro s o
  refine ⟨fun v => (comboValue_iff s o v).symm, combo_eq_none_iff s o, o.isLt, fun v w hv hw => ?_, fun h7 => ?_⟩
  · rw [comboValue_iff] at hv hw
    exact Option.some.inj (hv.symm.trans hw)
  · simp only [comboValue_iff]
    exact Option.ne_none_iff_exists'.1 fun hnone => h7 ((combo_eq_none_iff s o).1 hnone)

/-! ### Division at its corners -/

/-- A shift amount of the bit length of A or more gives 0. -/
theorem divideInto_of_lt {dest : Reg} {i : Instr} {s : State} {k : Nat} (h : ComboValue s i.operand k)
    (hlt : s.a < 2 ^ k) : divideInto dest i s = .next (completeNext (writeReg s dest 0)) := by
  rw [divideInto_of_comboValue h, Nat.div_eq_of_lt hlt]

/-- Operand 4 shifts A by itself. -/
theorem divideInto_by_a {dest : Reg} {i : Instr} {s : State} (h : i.operand = 4#3) :
    divideInto dest i s = .next (completeNext (writeReg s dest 0)) :=
  divideInto_of_lt (.inr (.inl ⟨h, rfl⟩)) Nat.lt_two_pow_self

/-- Operand 0 copies A. -/
theorem divideInto_by_zero {dest : Reg} {i : Instr} {s : State} (h : i.operand = 0#3) :
    divideInto dest i s = .next (completeNext (writeReg s dest s.a)) := by
  have hvalue : ComboValue s i.operand 0 := by rw [h]; exact .inl ⟨by decide, rfl⟩
  rw [divideInto_of_comboValue hvalue, Nat.pow_zero, Nat.div_one]

/-- Settles O39: the shift amounts A, 0, and a B that is at least a width A fits in. -/
theorem divideCornerCases : Obligations.DivideCornerCases := by
  refine fun s => ⟨divideInto_by_a (dest := .A) (i := .adv 4#3) rfl, divideInto_by_a (dest := .B) (i := .bdv 4#3) rfl,
    divideInto_by_a (dest := .C) (i := .cdv 4#3) rfl, divideInto_by_zero (dest := .A) (i := .adv 0#3) rfl,
    divideInto_by_zero (dest := .B) (i := .bdv 0#3) rfl, divideInto_by_zero (dest := .C) (i := .cdv 0#3) rfl,
    fun w ha hb => ?_⟩
  have hlt : s.a < 2 ^ s.b := ha.trans_le (Nat.pow_le_pow_right (by decide) hb)
  exact divideInto_of_lt (dest := .A) (i := .adv 5#3) (.inr (.inr (.inl ⟨rfl, rfl⟩))) hlt

/-- In the table of 10_state.md R22 only `adv` has A to write. -/
theorem eq_adv_of_writes_A {i : Instr} (h : writes i = some .A) : ∃ o, i = .adv o := by
  cases i with
  | adv o => exact ⟨o, rfl⟩
  | _ => cases h

/-- Settles O40: only `adv` has A to write, and it writes the quotient of A by a power of two, 2 or more if it
shifts. -/
theorem onlyAdvLowersA : Obligations.OnlyAdvLowersA := by
  refine ⟨fun i s t h hchanged => ?only, fun o s t h => ?le, fun o k s hvalue hk ha => ?lt⟩
  case only =>
    by_cases hw : writes i = some .A
    · exact eq_adv_of_writes_A hw
    · exact absurd (exec_a_of_not_written h hw) hchanged
  case le =>
    rcases divideInto_next h with ⟨k, -, rfl⟩ | ⟨-, rfl⟩
    · exact lsr_le s.a k
    · exact Nat.le_refl s.a
  case lt =>
    have hquotient : s.a / 2 ^ k < s.a := Nat.div_lt_self (Nat.pos_of_ne_zero ha) (Nat.one_lt_two_pow hk)
    exact ⟨_, divideInto_of_comboValue (dest := .A) (i := .adv o) hvalue, hquotient⟩

/-! ### A `W`-bit datapath -/

theorem toNat_shiftRight_eq_lsr {W : Nat} (v w : BitVec W) : (v >>> w).toNat = lsr v.toNat w.toNat := by
  rw [BitVec.ushiftRight_eq', BitVec.toNat_ushiftRight, Nat.shiftRight_eq_div_pow, lsr_eq_div]

/-- A shift by the whole width or more leaves nothing of a `W`-bit value. -/
theorem lsr_toNat_of_le {W k : Nat} (v : BitVec W) (h : W ≤ k) : lsr v.toNat k = 0 :=
  (lsr_eq_zero_iff v.toNat k).2 (v.isLt.trans_le (Nat.pow_le_pow_right (by decide) h))

/-- Settles O42: the shift of a bit vector is by its amount's value, unreduced, and drops what `lsr` drops. -/
theorem finiteWidthUnitsAgree : Obligations.FiniteWidthUnitsAgree :=
  fun _ _ v w => ⟨toNat_shiftRight_eq_lsr v w, BitVec.toNat_xor v w, rfl, lsr_toNat_of_le v⟩

/-! ### Exclusive-or twice -/

theorem bitXor_bitXor_cancel (v w : Nat) : bitXor (bitXor v w) w = v := Nat.xor_xor_cancel_right v w

/-- Two completed steps that write B, the second its first value, leave `pc` and `steps` two more. -/
theorem completeNext_writeReg_B_restored (s : State) (v : Nat) :
    completeNext (writeReg (completeNext (writeReg s .B v)) .B s.b) =
      { s with pc := s.pc + 2, steps := s.steps + 2 } := rfl

/-- Settles O47: the second exclusive-or is with what the first was with, a literal or the unchanged C. -/
theorem xorInstructionsUndoThemselves : Obligations.XorInstructionsUndoThemselves := by
  refine ⟨fun o s => ⟨_, _, execBxl_eq o s, execBxl_eq o _, ?_⟩,
    fun o o' s => ⟨_, _, execBxc_eq o s, execBxc_eq o' _, ?_⟩⟩
  · rw [completeNext_b, writeReg_B_b, bitXor_bitXor_cancel, completeNext_writeReg_B_restored]
  · rw [completeNext_b, completeNext_c, writeReg_B_b, writeReg_B_c, bitXor_bitXor_cancel,
      completeNext_writeReg_B_restored]

end Sys2Proof.Machine
end
